-- ==== Sys2Proof/Word.lean ====
section
/-! DEFINITION. The word types of the spec's notation (spec/00_scope.md R11): a byte is 8 bits, u16, u32 and u64 are
unsigned words; an s64 is a 64-bit word read through `BitVec.toInt`. -/
namespace Sys2Proof

/-- A byte (R11). -/
abbrev Byte := BitVec 8

/-- A u16 (R11). -/
abbrev U16 := BitVec 16

/-- A u32 (R11). -/
abbrev U32 := BitVec 32

/-- A u64 (R11). -/
abbrev U64 := BitVec 64

/-- An s64 (R11): 64 bits in two's complement; its value is `BitVec.toInt`. -/
abbrev S64 := BitVec 64

end Sys2Proof
end

