-- ==== Sys2Proof/Config.lean ====
section
/-! DEFINITION. What an instance of PA-CORE fixes when it is built (spec/00_scope.md R6, R7, R9): the constants no
instance may change and the one open parameter, TS_FORMAT. -/
namespace Sys2Proof

/-- TS_FORMAT (R7): the one timestamp representation an instance is built with. -/
inductive TsFormat where
  | ntp   -- two 32-bit big-endian integers: seconds since 1900-01-01 and a fraction of 2^32
  | f64   -- one 8-byte big-endian IEEE-754 binary64 of Unix seconds, carried as bits
deriving DecidableEq, Repr

/-- The configuration of one instance (R15: Config holds TS_FORMAT). -/
structure Config where
  tsFormat : TsFormat
deriving DecidableEq, Repr

/-- "Where a value must be named, this spec takes `NTP`" (R7, decision D3). -/
def Config.named : Config := { tsFormat := .ntp }

/-- The instance's identification string (R2). -/
def Config.identity (c : Config) : String :=
  match c.tsFormat with
  | .ntp => "PA-CORE/NTP"
  | .f64 => "PA-CORE/F64"

/-- SYNC (R6, R71): the constant at frame offsets 0..2. -/
def sync : List Byte := [0xA3, 0x9D, 0x7A]

/-- HDR_LEN (R6): the header's length, the sync marker counted. -/
def hdrLen : Nat := 16

/-- TYPE_MIN (R6). -/
def typeMin : Nat := 1

/-- TYPE_MAX (R6). -/
def typeMax : Nat := 9

/-- EPOCH_OFFSET (R6, R111): seconds from 1900-01-01 to 1970-01-01. -/
def epochOffset : Int := 2208988800

/-- The frame buffer's capacity, the largest value of the 16-bit packetSize field (R9, R22). -/
def maxFrame : Nat := 65535

/-- The largest payload (R9): 65535 − 16. -/
def maxPayload : Nat := 65519

end Sys2Proof
end

