-- ==== Sys2Proof/Syntax.lean ====
section
/-! DEFINITION. The commands of PA-CORE as syntax: one constructor of `Instr` for each row of
spec/opcode_table.json, with the operands of its format (spec/30_encoding.md R79, R81, R82). -/
namespace Sys2Proof

/-- A timestamp field: exactly 8 bytes in frame order, the byte at the lowest offset first (R70, R75). -/
structure Octets where
  b0 : Byte
  b1 : Byte
  b2 : Byte
  b3 : Byte
  b4 : Byte
  b5 : Byte
  b6 : Byte
  b7 : Byte
deriving DecidableEq, Repr

/-- Exactly 16 bytes laid out as a header (R70). The three sync bytes are kept as they stand, so that
any 16 bytes are representable. -/
structure HeaderBytes where
  s0 : Byte
  s1 : Byte
  s2 : Byte
  ty : Byte
  ps : U16
  cs : U16
  t  : Octets
deriving DecidableEq, Repr

/-- An instant (R82, R110): `(sec, frac)` with TS_FORMAT = NTP, a binary64 bit pattern with F64. -/
inductive Instant where
  | ntp (sec : S64) (frac : U32)
  | f64 (d : U64)
deriving DecidableEq, Repr

/-- The commands (R83), in the order of spec/opcode_table.json. A variable-length operand carries its
own length `L` (R80). -/
inductive Instr where
  | push (b : Byte)
  | eos
  | flush
  | setmode (m : Byte)
  | query
  | hpack (ty : Byte) (pl : U16) (cs : U16) (t : Octets)
  | hunpack (h : HeaderBytes)
  | csum (v : List Byte)
  | cverify (v : List Byte)
  | tsenc (I : Instant)
  | tsdec (t : Octets)
  | typename (code : Byte)
  | encode (ty : Byte) (v : List Byte) (I : Instant)
deriving DecidableEq, Repr

/-- The rows of the opcode map (R83), without operands. -/
inductive Op where
  | push | eos | flush | setmode | query | hpack | hunpack | csum | cverify | tsenc | tsdec | typename | encode
deriving DecidableEq, Repr

/-- The command formats (R81). -/
inductive Format where
  | F0 | FB | FH | FT | FP | FV | FI | FE
deriving DecidableEq, Repr

/-- What the decoder makes of a byte string. -/
inductive Decoded where
  | ok (i : Instr) (rest : List Byte)               -- one command, and the bytes after it
  | undefinedOpcode (o : Byte) (rest : List Byte)   -- an opcode of R84: no operands
  | incomplete                                      -- the string ends before the command does
deriving DecidableEq, Repr

end Sys2Proof
end

