-- ==== Sys2Proof/WellFormed.lean ====
section
/-! DEFINITION. Which terms of `Instr` are commands of an instance: an instant is of the instance's TS_FORMAT
(spec/30_encoding.md R82, spec/46_encoder.md R210) and a variable-length operand's length fits its u16 `L` (R80, R81). -/
namespace Sys2Proof

/-- The format an instant is written in (R82). -/
def Instant.format : Instant → TsFormat
  | .ntp _ _ => .ntp
  | .f64 _ => .f64

/-- A variable-length operand's length fits the u16 `L` before it (R80). -/
def lengthFits (v : List Byte) : Bool := decide (v.length ≤ 65535)

/-- The check on instruction terms. Every operand of fixed width is well formed by its type. -/
def Instr.wf (fmt : TsFormat) : Instr → Bool
  | .push _ => true
  | .eos => true
  | .flush => true
  | .setmode _ => true
  | .query => true
  | .hpack _ _ _ _ => true
  | .hunpack _ => true
  | .csum v => lengthFits v
  | .cverify v => lengthFits v
  | .tsenc I => decide (I.format = fmt)
  | .tsdec _ => true
  | .typename _ => true
  | .encode _ v I => lengthFits v && decide (I.format = fmt)

end Sys2Proof
end

