-- ==== Sys2Proof/Machine/Bytes.lean ====
section
/-! DEFINITION. Big-endian assembly and splitting (spec/00_scope.md R13; spec/20_memory.md R53, R54): byte order is
decided here and nowhere else. -/
namespace Sys2Proof

/-- `be16(a, b) = a·2^8 + b` (R13). -/
def be16 (a b : Byte) : U16 := a ++ b

/-- `be32` of four bytes, the first the most significant (R13). -/
def be32 (a b c d : Byte) : U32 := a ++ b ++ c ++ d

/-- `be64` of eight bytes, the first the most significant (R13). -/
def be64 (x : Octets) : U64 := be32 x.b0 x.b1 x.b2 x.b3 ++ be32 x.b4 x.b5 x.b6 x.b7

/-- `bytes16(v)`: two bytes, most significant first (R13). -/
def bytes16 (v : U16) : List Byte := [v.extractLsb' 8 8, v.extractLsb' 0 8]

/-- `bytes32(v)`: four bytes, most significant first (R13). -/
def bytes32 (v : U32) : List Byte :=
  [v.extractLsb' 24 8, v.extractLsb' 16 8, v.extractLsb' 8 8, v.extractLsb' 0 8]

/-- The eight bytes of two u32, `hi` first (R112: `bytes32(s) ++ bytes32(frac)`). -/
def Octets.ofWords (hi lo : U32) : Octets where
  b0 := hi.extractLsb' 24 8
  b1 := hi.extractLsb' 16 8
  b2 := hi.extractLsb' 8 8
  b3 := hi.extractLsb' 0 8
  b4 := lo.extractLsb' 24 8
  b5 := lo.extractLsb' 16 8
  b6 := lo.extractLsb' 8 8
  b7 := lo.extractLsb' 0 8

/-- `be32(t[0..4))` (R114). -/
def Octets.hi (t : Octets) : U32 := be32 t.b0 t.b1 t.b2 t.b3

/-- `be32(t[4..8))` (R114). -/
def Octets.lo (t : Octets) : U32 := be32 t.b4 t.b5 t.b6 t.b7

/-- `bytes64(v)`, as a field: eight bytes, most significant first (R13). -/
def Octets.ofU64 (v : U64) : Octets := Octets.ofWords (v.extractLsb' 32 32) (v.extractLsb' 0 32)

/-- The eight bytes in frame order. -/
def Octets.bytes (t : Octets) : List Byte := [t.b0, t.b1, t.b2, t.b3, t.b4, t.b5, t.b6, t.b7]

/-- `bytes64(v)` (R13); on an s64 it is `s64bytes`, the two's-complement form (R13). -/
def bytes64 (v : U64) : List Byte := (Octets.ofU64 v).bytes

/-- The sixteen bytes in frame order (R70). -/
def HeaderBytes.bytes (h : HeaderBytes) : List Byte :=
  [h.s0, h.s1, h.s2, h.ty] ++ bytes16 h.ps ++ bytes16 h.cs ++ h.t.bytes

/-- The serialized instant (R82): `s64bytes(sec)` then `bytes32(frac)`, or `bytes64(d)`. -/
def Instant.bytes : Instant → List Byte
  | .ntp sec frac => bytes64 sec ++ bytes32 frac
  | .f64 d => bytes64 d

end Sys2Proof
end

