-- ==== Sys2Proof/Decode.lean ====
section
/-! DEFINITION. The decoder and the encoder of commands, from the opcode map and the formats (spec/30_encoding.md
R80 to R84), the pseudo-instructions (R90), and the words of the opcode table as byte strings. -/
namespace Sys2Proof

/-- The opcode map (R83). An opcode not in it is undefined (R84). -/
def opcodeTable : List (Byte × Op) :=
  [ (0x01, .push), (0x02, .eos), (0x03, .flush), (0x04, .setmode), (0x05, .query),
    (0x10, .hpack), (0x11, .hunpack), (0x20, .csum), (0x21, .cverify),
    (0x30, .tsenc), (0x31, .tsdec), (0x40, .typename), (0x50, .encode) ]

/-- The whole opcode byte selects the command (R83, mask 0xFF). -/
def opOf (o : Byte) : Option Op := opcodeTable.lookup o

/-- The format of each command (R83). -/
def Op.format : Op → Format
  | .push | .setmode | .typename => .FB
  | .eos | .flush | .query => .F0
  | .hpack => .FP
  | .hunpack => .FH
  | .csum | .cverify => .FV
  | .tsenc => .FI
  | .tsdec => .FT
  | .encode => .FE

/-- The instant's width in bytes (R82). -/
def instantLength : TsFormat → Nat
  | .ntp => 12
  | .f64 => 8

/-! Readers of operands: each answers the operand and the bytes after it, or nothing where the string is too short. -/

/-- A u8 operand. -/
def takeByte : List Byte → Option (Byte × List Byte)
  | a :: rest => some (a, rest)
  | _ => none

/-- A big-endian u16 operand (R80). -/
def takeU16 : List Byte → Option (U16 × List Byte)
  | a :: b :: rest => some (be16 a b, rest)
  | _ => none

/-- A big-endian u32 operand (R80). -/
def takeU32 : List Byte → Option (U32 × List Byte)
  | a :: b :: c :: d :: rest => some (be32 a b c d, rest)
  | _ => none

/-- An operand of exactly eight bytes. -/
def takeOctets : List Byte → Option (Octets × List Byte)
  | b0 :: b1 :: b2 :: b3 :: b4 :: b5 :: b6 :: b7 :: rest => some (⟨b0, b1, b2, b3, b4, b5, b6, b7⟩, rest)
  | _ => none

/-- An operand of exactly sixteen bytes in header layout (R70, format FH). -/
def takeHeader : List Byte → Option (HeaderBytes × List Byte)
  | s0 :: s1 :: s2 :: ty :: p1 :: p0 :: c1 :: c0 :: rest =>
    (takeOctets rest).map fun x => (⟨s0, s1, s2, ty, be16 p1 p0, be16 c1 c0, x.1⟩, x.2)
  | _ => none

/-- A variable-length operand: its u16 length, then that many bytes (R80). -/
def takeVar (bs : List Byte) : Option (List Byte × List Byte) :=
  (takeU16 bs).bind fun x =>
    if x.1.toNat ≤ x.2.length then some (x.2.take x.1.toNat, x.2.drop x.1.toNat) else none

/-- An instant operand of the given TS_FORMAT (R82). -/
def takeInstant (fmt : TsFormat) (bs : List Byte) : Option (Instant × List Byte) :=
  match fmt with
  | .ntp => (takeOctets bs).bind fun x => (takeU32 x.2).map fun y => (.ntp (be64 x.1) y.1, y.2)
  | .f64 => (takeOctets bs).map fun x => (.f64 (be64 x.1), x.2)

/-- The operands of a command, in the order of its format (R81). -/
def takeOperands (fmt : TsFormat) (op : Op) (bs : List Byte) : Option (Instr × List Byte) :=
  match op with
  | .push => (takeByte bs).map fun x => (.push x.1, x.2)
  | .eos => some (.eos, bs)
  | .flush => some (.flush, bs)
  | .setmode => (takeByte bs).map fun x => (.setmode x.1, x.2)
  | .query => some (.query, bs)
  | .hpack =>
    (takeByte bs).bind fun ty => (takeU16 ty.2).bind fun pl => (takeU16 pl.2).bind fun cs =>
      (takeOctets cs.2).map fun t => (.hpack ty.1 pl.1 cs.1 t.1, t.2)
  | .hunpack => (takeHeader bs).map fun x => (.hunpack x.1, x.2)
  | .csum => (takeVar bs).map fun x => (.csum x.1, x.2)
  | .cverify => (takeVar bs).map fun x => (.cverify x.1, x.2)
  | .tsenc => (takeInstant fmt bs).map fun x => (.tsenc x.1, x.2)
  | .tsdec => (takeOctets bs).map fun x => (.tsdec x.1, x.2)
  | .typename => (takeByte bs).map fun x => (.typename x.1, x.2)
  | .encode =>
    (takeByte bs).bind fun ty => (takeVar ty.2).bind fun v =>
      (takeInstant fmt v.2).map fun I => (.encode ty.1 v.1 I.1, I.2)

/-- The decoder (R83): one command from the front of a byte string. -/
def decode (fmt : TsFormat) : List Byte → Decoded
  | [] => .incomplete
  | o :: bs =>
    match opOf o with
    | none => .undefinedOpcode o bs
    | some op =>
      match takeOperands fmt op bs with
      | some (i, rest) => .ok i rest
      | none => .incomplete

/-! The encoder, from the same tables. -/

/-- The row of the opcode map an instruction belongs to. -/
def Instr.op : Instr → Op
  | .push _ => .push
  | .eos => .eos
  | .flush => .flush
  | .setmode _ => .setmode
  | .query => .query
  | .hpack _ _ _ _ => .hpack
  | .hunpack _ => .hunpack
  | .csum _ => .csum
  | .cverify _ => .cverify
  | .tsenc _ => .tsenc
  | .tsdec _ => .tsdec
  | .typename _ => .typename
  | .encode _ _ _ => .encode

/-- The opcode of a row (R83). -/
def Op.code : Op → Byte
  | .push => 0x01
  | .eos => 0x02
  | .flush => 0x03
  | .setmode => 0x04
  | .query => 0x05
  | .hpack => 0x10
  | .hunpack => 0x11
  | .csum => 0x20
  | .cverify => 0x21
  | .tsenc => 0x30
  | .tsdec => 0x31
  | .typename => 0x40
  | .encode => 0x50

/-- A variable-length operand preceded by its length as a u16 (R80). -/
def varBytes (v : List Byte) : List Byte := bytes16 (BitVec.ofNat 16 v.length) ++ v

/-- The operand bytes of an instruction (R81). -/
def operandBytes : Instr → List Byte
  | .push b => [b]
  | .eos => []
  | .flush => []
  | .setmode m => [m]
  | .query => []
  | .hpack ty pl cs t => [ty] ++ bytes16 pl ++ bytes16 cs ++ t.bytes
  | .hunpack h => h.bytes
  | .csum v => varBytes v
  | .cverify v => varBytes v
  | .tsenc I => I.bytes
  | .tsdec t => t.bytes
  | .typename code => [code]
  | .encode ty v I => [ty] ++ varBytes v ++ I.bytes

/-- The serialization of a well-formed instruction (R80): its opcode byte, then its operands. -/
def encode (i : Instr) : List Byte := i.op.code :: operandBytes i

/-- The length of an instruction's serialization (R81). -/
def commandLength : Instr → Nat
  | .push _ | .setmode _ | .typename _ => 2
  | .eos | .flush | .query => 1
  | .hunpack _ => 17
  | .tsdec _ => 9
  | .hpack _ _ _ _ => 14
  | .csum v | .cverify v => 3 + v.length
  | .tsenc I => 1 + instantLength I.format
  | .encode _ v I => 4 + v.length + instantLength I.format

/-! The pseudo-instructions (R90). -/

/-- `FEED {b0 … bn}` = `PUSH b0`, …, `PUSH bn`. -/
def pseudoFeed (bs : List Byte) : List Instr := bs.map .push

/-- `STRICT` = `SETMODE 0x01`. -/
def pseudoStrict : Instr := .setmode 0x01

/-- `LENIENT` = `SETMODE 0x00`. -/
def pseudoLenient : Instr := .setmode 0x00

/-! A row of the opcode table as a byte string. -/

/-- How many bytes the command at the front of `bs` takes, the bytes `bs` lacks read as zero: from its opcode,
from the u16 `L` of formats FV and FE, and from TS_FORMAT (R83). A command of an undefined opcode has no operands. -/
def lengthOfFront (fmt : TsFormat) (bs : List Byte) : Nat :=
  match (opOf (bs.getD 0 0)).map Op.format with
  | none => 1
  | some .F0 => 1
  | some .FB => 2
  | some .FH => 17
  | some .FT => 9
  | some .FP => 14
  | some .FV => 3 + (be16 (bs.getD 1 0) (bs.getD 2 0)).toNat
  | some .FI => 1 + instantLength fmt
  | some .FE => 4 + (be16 (bs.getD 2 0) (bs.getD 3 0)).toNat + instantLength fmt

/-- The low `nbits` of `w` as whole bytes, the least significant first: byte k of the command is bits 8k+7 … 8k. -/
def wordBytes (nbits w : Nat) : List Byte :=
  (List.range (nbits / 8)).map fun k => BitVec.ofNat 8 (w / 2 ^ (8 * k))

/-- The command whose bits are `w`, every bit above `nbits` zero, as the bytes of exactly one command. -/
def tableBytes (fmt : TsFormat) (nbits w : Nat) : List Byte :=
  let n := lengthOfFront fmt (wordBytes nbits w)
  (wordBytes nbits w).take n ++ List.replicate (n - nbits / 8) 0

/-- The instruction the decoder reads from a word of the opcode table, for the instance the spec names
where one must be named (R7: NTP). -/
def decodeTableWord (nbits w : Nat) : Option Instr :=
  match decode Config.named.tsFormat (tableBytes Config.named.tsFormat nbits w) with
  | .ok i _ => some i
  | .undefinedOpcode _ _ => none
  | .incomplete => none

end Sys2Proof
end

