-- ==== Sys2Proof/Machine/State.lean ====
section
/-! DEFINITION. The state of one PA-CORE instance (spec/10_state.md R20 to R34), its responses (spec/30_encoding.md
R85 to R87; spec/60_exceptions.md R231), the host's moves (R240), the reasons a step stops, and the state after reset. -/
namespace Sys2Proof.Machine

/-- ASM_TAG (R21, R170): the assembler's state tag. The reserved value 3 is not representable. -/
inductive AsmTag where
  | seek   -- 0: SeekingSync
  | hdr    -- 1: ReadingHeader
  | pay    -- 2: ReadingPayload
deriving DecidableEq, Repr

/-- The status of a response (R231). -/
inductive Status where
  | ok
  | truncatedFrame
  | checksumMismatch
  | unknownMessageType
  | syncMismatch
  | payloadTooLong
  | timestampOutOfRange
  | badLength
  | illegalCommand
deriving DecidableEq, Repr

/-- The packet record an emitting PUSH returns (R87, R175). -/
structure Packet where
  ty      : Byte
  flags   : Byte
  ps      : U16
  cs      : U16
  t       : Octets
  payload : List Byte
deriving DecidableEq, Repr

/-- The result of HUNPACK (R86, R152). -/
structure HeaderRecord where
  ty    : Byte
  flags : Byte
  ps    : U16
  cs    : U16
  t     : Octets
deriving DecidableEq, Repr

/-- The results and information a response carries after its status (R86). -/
inductive Results where
  | none                                               -- nothing follows the status
  | nothingCompleted                                   -- PUSH, ev = 0
  | packet (p : Packet)                                -- PUSH, ev = 1
  | discarded (ps : U16)                               -- PUSH, ev = 2: the offending packetSize
  | mismatch (stored computed : U16)                   -- PUSH, ChecksumMismatch
  | truncated (tag : AsmTag) (len : U16)               -- EOS, TruncatedFrame
  | state (tag : AsmTag) (len : U16) (ctrl cfg : Byte) -- QUERY
  | header (h : HeaderBytes)                           -- HPACK
  | unpacked (r : HeaderRecord)                        -- HUNPACK
  | checksum (c : U16)                                 -- CSUM
  | verdict (ok : Bool) (stored computed : U16)        -- CVERIFY
  | field (t : Octets)                                 -- TSENC
  | instant (I : Instant)                              -- TSDEC
  | typeName (known : Bool) (name : Byte)              -- TYPENAME
  | frame (ps : U16) (f : List Byte)                   -- ENCODE
deriving DecidableEq, Repr

/-- A response (R85): a status with its results. -/
structure Response where
  status  : Status
  results : Results
deriving DecidableEq, Repr

/-- What the host may do (R240). Doing nothing, for any time, is the end of the list of moves (R244). -/
inductive HostMove where
  | reset                          -- assert reset between two commands (R260)
  | command (bytes : List Byte)    -- issue one command, given in its serialization (R79, R80)
  | take                           -- take the response of the last command (R240)
deriving DecidableEq, Repr

/-- The block has no fault: no trap, no fatal or sticky error (R233, R236, R237). An error is the status of a
response, and the machine goes on. So no constructor exists, and none is safe or unsafe. -/
inductive Fault where
deriving DecidableEq, Repr

/-- Why a step gives the situation no meaning. Every constructor is safe: the model stops where a block might go on. -/
inductive Refusal where
  /-- Raised by an arm of `exec` whose instruction has no meaning yet (none in this model). Safe. -/
  | notModelled (mnemonic : String)
  /-- Raised by a step that issues a command before the first reset (R262, U2). Safe. -/
  | beforeFirstReset
  /-- Raised by a step that issues a command while the previous response is not taken (R240, U22). Safe. -/
  | responseNotTaken
  /-- Raised by a step that issues a command on a state that breaks R24 or R27's reserved bits, and by PUSH itself in PAY
  or at the end of HDR on a buffer too short to be a frame (U1). Safe. -/
  | illFormedState
  /-- Raised by a step whose bytes are not the serialization of one command: too short, or bytes left over (R81). Safe. -/
  | notOneCommand
  /-- Raised by TSENC and ENCODE on an instant of the other TS_FORMAT, which no serialization denotes (R82, R210). Safe. -/
  | instantOfOtherFormat
deriving DecidableEq, Repr

end Sys2Proof.Machine

namespace Sys2Proof.Machine

/-- The state of one PA-CORE instance: exactly the three components R20 lists, ASM_TAG (R21), ASM_BUF (R22) and CTRL (R27). -/
structure BlockState where
  tag  : AsmTag
  buf  : List Byte
  ctrl : Byte
deriving DecidableEq, Repr

/-- The machine a step runs on: the instance's state (R20), and beside it what is not state of the block. `cfg` is the
instance's configuration, hardwired (R28); `wasReset`, `host` and `response` are the transaction interface: whether reset
has been asserted (R262), the moves the host is still to make (R79, R240), and the response it has not taken yet (R240).
Log entry 14. -/
structure State extends BlockState where
  cfg      : Config
  wasReset : Bool
  host     : List HostMove
  response : Option Response
deriving DecidableEq, Repr

/-- The instance's state right after reset (R32, R260): SEEK, an empty buffer, CTRL = 0. -/
def BlockState.reset : BlockState where
  tag := .seek
  buf := []
  ctrl := 0x00

/-- The machine right after reset: the instance's state is R32's; the instance is the one the spec names where one must be
named (R7, log entry 1); the host has made no move yet and no response is outstanding. -/
def State.reset : State where
  toBlockState := BlockState.reset
  cfg := Config.named
  wasReset := true
  host := []
  response := none

end Sys2Proof.Machine
end

