-- ==== Sys2Proof/Machine/Ops.lean ====
section
/-! DEFINITION. The named operations on the state: reads and writes of the registers (spec/10_state.md R21 to R28), of
the scan buffer (spec/20_memory.md R52), the one way a command ends (R14, R230), and the reset action (R260). -/
namespace Sys2Proof.Machine

/-- What running a command answers. -/
abbrev Answer := Host.Outcome State Fault Refusal

/-- ASM_TAG as the number QUERY and EOS report (R21). -/
def AsmTag.code : AsmTag → Byte
  | .seek => 0
  | .hdr => 1
  | .pay => 2

/-- ASM_LEN (R23): the read-only view `len(ASM_BUF)`, a u16. -/
def asmLen (s : State) : U16 := BitVec.ofNat 16 s.buf.length

/-- CTRL as QUERY reads it (R27): bits 7:1 are reserved and read as 0. -/
def readCtrl (s : State) : Byte := s.ctrl &&& 0x01

/-- CTRL.STRICT (R8, R27). -/
def strict (s : State) : Bool := s.ctrl.getLsbD 0

/-- `CTRL.STRICT <- b` (R178): the reserved bits stay 0 (R27). -/
def writeStrict (b : Bool) (s : State) : State := { s with ctrl := if b then 0x01 else 0x00 }

/-- CFG (R28): bit 0 is TS_FORMAT, 0 for NTP and 1 for F64; bits 7:1 are 0. -/
def readCfg (s : State) : Byte :=
  match s.cfg.tsFormat with
  | .ntp => 0x00
  | .f64 => 0x01

/-- `MemRead(off, n) = ASM_BUF[off..off+n)`, defined only when the bytes are there (R14, R52). -/
def memRead (off n : Nat) (s : State) : Option (List Byte) :=
  if off + n ≤ s.buf.length then some ((s.buf.drop off).take n) else none

/-- The append, the only write of the scan buffer (R52): the buffer with the stream byte after it. -/
def appended (s : State) (b : Byte) : List Byte := s.buf ++ [b]

/-- `ASM_TAG <- tag; ASM_BUF <- buf`. -/
def setAssembler (tag : AsmTag) (buf : List Byte) (s : State) : State := { s with tag := tag, buf := buf }

/-- The return of the assembler to SEEK with an empty buffer (R172, R174, R176, R177). -/
def emptyAssembler (s : State) : State := setAssembler .seek [] s

/-- A command ends with a status and its results in the response (R14, R85). -/
def respond (st : Status) (r : Results) (s : State) : Answer := .next { s with response := some ⟨st, r⟩ }

/-- `return r` (R14): the command ends with status OK. -/
def ok (r : Results) (s : State) : Answer := respond .ok r s

/-- `raise S(info)` (R14, R230): the command ends with status `st`, in the state handed over, which is the state before
the command but for the writes its rule lists. The block's nearest thing to taking an exception: there is no vector, no
saved state and no handler mode (R237), and the next command is performed normally (R238). -/
def raise (st : Status) (info : Results) (s : State) : Answer := respond st info s

/-- An undefined opcode (R84): no state written, status IllegalCommand. -/
def illegalCommand (s : State) : Answer := raise .illegalCommand .none s

/-- The reset action (R260): CFG is not written, no response is produced, and a response already given stays (R265). -/
def assertReset (s : State) : State := { s with tag := .seek, buf := [], ctrl := 0x00, wasReset := true }

/-- The host takes the outstanding response (R240). -/
def takeResponse (s : State) : State := { s with response := none }

end Sys2Proof.Machine
end

