-- ==== Sys2Proof/Machine/Operands.lean ====
section
/-! DEFINITION. Operand forms: the fields of a frame at their fixed offsets (spec/30_encoding.md R70, R51), the derived
quantities of the frame in the buffer (spec/10_state.md R25), the invariants of R24, and the instant operand (R82). -/
namespace Sys2Proof.Machine

/-- The header of a frame and the bytes from offset 16 on (R70): defined once the frame has 16 bytes (R25). -/
def frameFields (f : List Byte) : Option (HeaderBytes × List Byte) := takeHeader f

/-- `f[0..3) = SYNC` of header bytes (R71, R152). -/
def isSynced (h : HeaderBytes) : Bool := decide ([h.s0, h.s1, h.s2] = sync)

/-- PS (R25): the packetSize field of the frame in the buffer, once 16 bytes are in. -/
def packetSize (s : State) : Option Nat := (frameFields s.buf).map fun x => x.1.ps.toNat

/-- NEED (R25): in PAY, the payload bytes still to come. -/
def needed (s : State) : Option Nat := (packetSize s).map fun ps => ps - s.buf.length

/-- `stored(f) = be16(f[6], f[7])` (R133). -/
def storedChecksum (f : List Byte) : Option U16 := (takeU16 (f.drop 6)).map fun x => x.1

/-- The window or frame in the buffer is one R24 allows for the tag. -/
def assemblerWf (s : State) : Bool :=
  match s.tag with
  | .seek => decide (s.buf.length ≤ 2)
  | .hdr => decide (3 ≤ s.buf.length ∧ s.buf.length ≤ 15) && decide (s.buf.take 3 = sync)
  | .pay =>
    match packetSize s with
    | none => false
    | some ps => decide (16 ≤ s.buf.length ∧ s.buf.length < ps) && decide (s.buf.take 3 = sync)

/-- The states commands are given a meaning on (U1): R24's invariants, and CTRL[7:1] = 0 (R27). -/
def State.wf (s : State) : Bool := assemblerWf s && decide (s.ctrl.extractLsb' 1 7 = 0)

/-- What the timestamp encoder makes of an instant (R112, R113). -/
inductive Encoded where
  | field (t : Octets)     -- the 8-byte timestamp field
  | outOfRange             -- TimestampOutOfRange (NTP only)
  | otherFormat            -- an instant that is not of the instance's TS_FORMAT: no operand of this instance
deriving DecidableEq, Repr

end Sys2Proof.Machine
end

