-- ==== Sys2Proof/Machine/Flags.lean ====
section
/-! DEFINITION. The flags a response carries (spec/10_state.md R31; spec/41_registry.md R102; spec/30_encoding.md R87)
and the checksum fold they rest on (spec/43_checksum.md R130). No flag is state. -/
namespace Sys2Proof.Machine

/-- `known(code) = (1 ≤ code ≤ 9)` (R102), the flag `type_known`. -/
def known (code : Byte) : Bool := decide (typeMin ≤ code.toNat ∧ code.toNat ≤ typeMax)

/-- The XOR of a byte sequence; the XOR of no bytes is 0 (R130). -/
def xorAll (f : List Byte) : Byte := f.foldl (· ^^^ ·) 0

/-- `fold(f)` (R130): the XOR of every byte but those at offsets 6 and 7, zero-extended to 16 bits. -/
def fold (f : List Byte) : U16 := (xorAll (f.take 6 ++ f.drop 8)).setWidth 16

/-- The flag `csum_ok` (R31, R174): the stored checksum equals the computed one. -/
def csumOk (stored computed : U16) : Bool := decide (stored = computed)

/-- The flags byte (R87): bit 0 = `csum_ok`, bit 1 = `type_known`, bits 7:2 = 0. -/
def flagsByte (csumOk typeKnown : Bool) : Byte :=
  (if csumOk then 0x01 else 0x00) ||| (if typeKnown then 0x02 else 0x00)

end Sys2Proof.Machine
end

