-- ==== Sys2Proof/Machine/Assembler.lean ====
section
/-! DEFINITION. ASSEMBLER, the packet synchronizer/assembler (spec/45_assembler.md R170 to R183): PUSH, EOS, FLUSH,
SETMODE and QUERY. -/
namespace Sys2Proof.Machine

/-- The emitted packet P(f, ok) (R175), from the frame's fields and its length. -/
def packetOf (h : HeaderBytes) (payload : List Byte) (len : Nat) (ok : Bool) : Packet where
  ty := h.ty
  flags := flagsByte ok (known h.ty)
  ps := BitVec.ofNat 16 len
  cs := h.cs
  t := h.t
  payload := payload

/-- COMPLETE (R174) on the frame `f` with header `h`: STRICT is read here; the assembler returns to SEEK either way. -/
def complete (f : List Byte) (h : HeaderBytes) (payload : List Byte) (s : State) : Answer :=
  let stored := h.cs
  let computed := fold f
  let good := csumOk stored computed
  if strict s && !good then raise .checksumMismatch (.mismatch stored computed) (emptyAssembler s)
  else ok (.packet (packetOf h payload f.length good)) (emptyAssembler s)

/-- HEADER_DONE (R172) on the 16-byte frame `f`: the packetSize test comes before the checksum (R234). -/
def headerDone (f : List Byte) (s : State) : Answer :=
  match frameFields f with
  | none => .refused .illFormedState
  | some (h, payload) =>
    if h.ps.toNat < hdrLen then ok (.discarded h.ps) (emptyAssembler s)
    else if h.ps.toNat = hdrLen then complete f h payload s
    else ok .nothingCompleted (setAssembler .pay f s)

/-- PUSH in SEEK (R171): the rolling window; a failed window drops only its oldest byte (90_conflicts.md C1). -/
def pushSeek (w : List Byte) (s : State) : Answer :=
  if w.length < 3 then ok .nothingCompleted (setAssembler .seek w s)
  else if w = sync then ok .nothingCompleted (setAssembler .hdr w s)
  else ok .nothingCompleted (setAssembler .seek ((w.drop 1).take 2) s)

/-- PUSH in HDR (R171). -/
def pushHdr (f : List Byte) (s : State) : Answer :=
  if f.length < hdrLen then ok .nothingCompleted (setAssembler .hdr f s)
  else headerDone f s

/-- PUSH in PAY (R171, R173). -/
def pushPay (f : List Byte) (s : State) : Answer :=
  match frameFields f with
  | none => .refused .illFormedState
  | some (h, payload) =>
    if f.length < h.ps.toNat then ok .nothingCompleted (setAssembler .pay f s)
    else complete f h payload s

/-- PUSH (R171): feed one stream byte to the assembler. -/
def execPush (b : Byte) (s : State) : Answer :=
  match s.tag with
  | .seek => pushSeek (appended s b) s
  | .hdr => pushHdr (appended s b) s
  | .pay => pushPay (appended s b) s

/-- EOS (R176): always empties the assembler; TruncatedFrame from HDR and PAY. -/
def execEos (s : State) : Answer :=
  match s.tag with
  | .seek => ok .none (emptyAssembler s)
  | .hdr => raise .truncatedFrame (.truncated .hdr (asmLen s)) (emptyAssembler s)
  | .pay => raise .truncatedFrame (.truncated .pay (asmLen s)) (emptyAssembler s)

/-- FLUSH (R177): empties the assembler without a report. -/
def execFlush (s : State) : Answer := ok .none (emptyAssembler s)

/-- SETMODE (R178): refused when a reserved bit of `m` is 1. -/
def execSetmode (m : Byte) (s : State) : Answer :=
  if m.extractLsb' 1 7 = 0 then ok .none (writeStrict (m.getLsbD 0) s)
  else raise .illegalCommand .none s

/-- QUERY (R179): no state is written. -/
def execQuery (s : State) : Answer := ok (.state s.tag (asmLen s) (readCtrl s) (readCfg s)) s

end Sys2Proof.Machine
end

