-- ==== Sys2Proof/Machine/Checksum.lean ====
section
/-! DEFINITION. The CSUM engine (spec/43_checksum.md R130 to R136): CSUM and CVERIFY. -/
namespace Sys2Proof.Machine

/-- CSUM (R131): only the length is checked. -/
def execCsum (v : List Byte) (s : State) : Answer :=
  if v.length < hdrLen then raise .badLength .none s
  else ok (.checksum (fold v)) s

/-- CVERIFY (R132): only the length is checked; a mismatch is a verdict, not an error. -/
def execCverify (v : List Byte) (s : State) : Answer :=
  if v.length < hdrLen then raise .badLength .none s
  else
    match storedChecksum v with
    | none => raise .badLength .none s
    | some stored => ok (.verdict (csumOk stored (fold v)) stored (fold v)) s

end Sys2Proof.Machine
end

