-- ==== Sys2Proof/Machine/HeaderCodec.lean ====
section
/-! DEFINITION. HDRCODEC, the header codec (spec/44_header.md R150 to R154): HPACK and HUNPACK. -/
namespace Sys2Proof.Machine

/-- The header with the constant sync marker (R70, R71): `SYNC ++ [ty] ++ bytes16(ps) ++ bytes16(cs) ++ t`. -/
def headerOf (ty : Byte) (ps cs : U16) (t : Octets) : HeaderBytes :=
  ⟨0xA3, 0x9D, 0x7A, ty, ps, cs, t⟩

/-- HPACK (R151): no registry check; `cs` is packed as given. -/
def execHpack (ty : Byte) (pl cs : U16) (t : Octets) (s : State) : Answer :=
  if pl.toNat > maxPayload then raise .payloadTooLong .none s
  else ok (.header (headerOf ty (BitVec.ofNat 16 (hdrLen + pl.toNat)) cs t)) s

/-- HUNPACK (R152): the sync check only; bit 0 of the flags is 0, since nothing is verified. -/
def execHunpack (h : HeaderBytes) (s : State) : Answer :=
  if isSynced h then ok (.unpacked ⟨h.ty, flagsByte false (known h.ty), h.ps, h.cs, h.t⟩) s
  else raise .syncMismatch .none s

end Sys2Proof.Machine
end

