-- ==== Sys2Proof/Machine/Timestamp.lean ====
section
/-! DEFINITION. TSCODEC, the timestamp codec (spec/42_timestamp.md R110 to R120): TSENC and TSDEC in the instance's one
representation, and the host's conversion of a finer time (R117). -/
namespace Sys2Proof.Machine

/-- TSENC with TS_FORMAT = NTP (R112): seconds since 1900, exactly, refused outside a u32; then the fraction. -/
def encodeNtp (sec : S64) (frac : U32) : Encoded :=
  let s := sec.toInt + epochOffset
  if s < 0 ∨ s > 4294967295 then .outOfRange
  else .field (Octets.ofWords (BitVec.ofInt 32 s) frac)

/-- The timestamp encoder of an instance (R112, R113). -/
def encodeInstant (fmt : TsFormat) (I : Instant) : Encoded :=
  match fmt, I with
  | .ntp, .ntp sec frac => encodeNtp sec frac
  | .f64, .f64 d => .field (Octets.ofU64 d)
  | .ntp, .f64 _ => .otherFormat
  | .f64, .ntp _ _ => .otherFormat

/-- The timestamp decoder of an instance (R114, R115); it never inspects the bytes to guess the format (R118). -/
def decodeField (fmt : TsFormat) (t : Octets) : Instant :=
  match fmt with
  | .ntp => .ntp (BitVec.ofInt 64 ((t.hi.toNat : Int) - epochOffset)) t.lo
  | .f64 => .f64 (be64 t)

/-- TSENC (R112 with NTP, R113 with F64). -/
def execTsenc (I : Instant) (s : State) : Answer :=
  match encodeInstant s.cfg.tsFormat I with
  | .field t => ok (.field t) s
  | .outOfRange => raise .timestampOutOfRange .none s
  | .otherFormat => .refused .instantOfOtherFormat

/-- TSDEC (R114 with NTP, R115 with F64): always OK. -/
def execTsdec (t : Octets) (s : State) : Answer := ok (.instant (decodeField s.cfg.tsFormat t)) s

/-- The time an NTP instant denotes, in Unix seconds (R110); an F64 instant is carried, not computed with (R119). -/
def timeOf : Instant → Option Rat
  | .ntp sec frac => some ((sec.toInt : Rat) + (frac.toNat : Rat) / 4294967296)
  | .f64 _ => none

/-- The NTP instant a host makes of a finer time (R117): the floor, in seconds and in units of 2^-32 s. DESIGN CHOICE (log
entry 19, safe): a time whose floor is no s64 is given no instant, a case R117 leaves open. -/
def instantOfTime (t : Rat) : Option Instant :=
  if -9223372036854775808 ≤ t.floor ∧ t.floor < 9223372036854775808 then
    some (.ntp (BitVec.ofInt 64 t.floor) (BitVec.ofInt 32 ((t - t.floor) * 4294967296).floor))
  else none

end Sys2Proof.Machine
end

