-- ==== Sys2Proof/Machine/Encoder.lean ====
section
/-! DEFINITION. ENCODER, the frame encoder (spec/46_encoder.md R210 to R213): ENCODE. -/
namespace Sys2Proof.Machine

/-- The complete frame of R210: the header with checksum field zero and the payload, then the field rewritten with the
fold of that whole buffer. -/
def frameOf (ty : Byte) (v : List Byte) (t : Octets) : List Byte :=
  let ps := BitVec.ofNat 16 (hdrLen + v.length)
  (headerOf ty ps (fold ((headerOf ty ps 0 t).bytes ++ v)) t).bytes ++ v

/-- ENCODE (R210): the type, then the length, then the time are checked, in that order (R235). -/
def execEncode (ty : Byte) (v : List Byte) (I : Instant) (s : State) : Answer :=
  match encodeInstant s.cfg.tsFormat I with
  | .otherFormat => .refused .instantOfOtherFormat
  | .outOfRange =>
    if !known ty then raise .unknownMessageType .none s
    else if v.length > maxPayload then raise .payloadTooLong .none s
    else raise .timestampOutOfRange .none s
  | .field t =>
    if !known ty then raise .unknownMessageType .none s
    else if v.length > maxPayload then raise .payloadTooLong .none s
    else ok (.frame (BitVec.ofNat 16 (hdrLen + v.length)) (frameOf ty v t)) s

end Sys2Proof.Machine
end

