-- ==== Sys2Proof/Machine/Registry.lean ====
section
/-! DEFINITION. REGISTRY, the message-type registry (spec/41_registry.md R100 to R103): TYPENAME. -/
namespace Sys2Proof.Machine

/-- The registry's names (R100), Unknown for every other code. -/
inductive TypeName where
  | unknown
  | dataFromInstrument
  | dataFromDriver
  | portAgentCommand
  | portAgentStatus
  | portAgentFault
  | instrumentCommand
  | heartbeat
  | pickledDataFromInstrument
  | pickledDataFromDriver
deriving DecidableEq, Repr

/-- `nameOf(code)`: the fixed table (R100). -/
def nameOf (code : Byte) : TypeName :=
  match code.toNat with
  | 1 => .dataFromInstrument
  | 2 => .dataFromDriver
  | 3 => .portAgentCommand
  | 4 => .portAgentStatus
  | 5 => .portAgentFault
  | 6 => .instrumentCommand
  | 7 => .heartbeat
  | 8 => .pickledDataFromInstrument
  | 9 => .pickledDataFromDriver
  | _ => .unknown

/-- The name index a response carries (R100): the code itself, 0 for Unknown. -/
def TypeName.index : TypeName → Byte
  | .unknown => 0
  | .dataFromInstrument => 1
  | .dataFromDriver => 2
  | .portAgentCommand => 3
  | .portAgentStatus => 4
  | .portAgentFault => 5
  | .instrumentCommand => 6
  | .heartbeat => 7
  | .pickledDataFromInstrument => 8
  | .pickledDataFromDriver => 9

/-- The name as the table writes it (R100). -/
def TypeName.text : TypeName → String
  | .unknown => "Unknown"
  | .dataFromInstrument => "DataFromInstrument"
  | .dataFromDriver => "DataFromDriver"
  | .portAgentCommand => "PortAgentCommand"
  | .portAgentStatus => "PortAgentStatus"
  | .portAgentFault => "PortAgentFault"
  | .instrumentCommand => "InstrumentCommand"
  | .heartbeat => "Heartbeat"
  | .pickledDataFromInstrument => "PickledDataFromInstrument"
  | .pickledDataFromDriver => "PickledDataFromDriver"

/-- TYPENAME (R101): always OK. -/
def execTypename (code : Byte) (s : State) : Answer :=
  if known code then ok (.typeName true (nameOf code).index) s
  else ok (.typeName false 0) s

end Sys2Proof.Machine
end

