-- ==== Sys2Proof/Machine/Dispatch.lean ====
section
/-! DEFINITION. One arm per command: each calls its meaning. -/
namespace Sys2Proof.Machine

def exec (i : Instr) (s : State) : Host.Outcome State Fault Refusal :=
  match i with
  | .push b => Sys2Proof.Machine.execPush b s
  | .eos => Sys2Proof.Machine.execEos s
  | .flush => Sys2Proof.Machine.execFlush s
  | .setmode m => Sys2Proof.Machine.execSetmode m s
  | .query => Sys2Proof.Machine.execQuery s
  | .hpack ty pl cs t => Sys2Proof.Machine.execHpack ty pl cs t s
  | .hunpack h => Sys2Proof.Machine.execHunpack h s
  | .csum v => Sys2Proof.Machine.execCsum v s
  | .cverify v => Sys2Proof.Machine.execCverify v s
  | .tsenc I => Sys2Proof.Machine.execTsenc I s
  | .tsdec t => Sys2Proof.Machine.execTsdec t s
  | .typename code => Sys2Proof.Machine.execTypename code s
  | .encode ty v I => Sys2Proof.Machine.execEncode ty v I s

end Sys2Proof.Machine
end

