-- ==== Sys2Proof/Machine/Issue.lean ====
section
/-! DEFINITION. What the block does on one host move (spec/60_exceptions.md R240): performing an issued command
(spec/30_encoding.md R79, R84), and placing a command as the host's next move. -/
namespace Sys2Proof.Machine

/-- R15's function of one command: Config × State × Command → State × Response, on the three components of R20 alone. `none`
only for a command that is not one of the instance, or on a state R24 rules out. -/
def transaction (c : Config) (b : BlockState) (i : Instr) : Option (BlockState × Response) :=
  match exec i { toBlockState := b, cfg := c, wasReset := true, host := [], response := none } with
  | .next t => t.response.map fun r => (t.toBlockState, r)
  | .fault _ => none
  | .refused _ => none

/-- One issued command, the state `s` already past the host's move. Refused before the first reset (R262), while the
previous response is outstanding (R240, U22), on a state no run reaches (R24, U1), and where the bytes are not one
command. An undefined opcode is performed by R84, and no operand of it is examined (R234). -/
def performCommand (bytes : List Byte) (s : State) : Answer :=
  if !s.wasReset then .refused .beforeFirstReset
  else if s.response.isSome then .refused .responseNotTaken
  else if !s.wf then .refused .illFormedState
  else
    match decode s.cfg.tsFormat bytes with
    | .ok i [] => exec i s
    | .ok _ (_ :: _) => .refused .notOneCommand
    | .undefinedOpcode _ _ => illegalCommand s
    | .incomplete => .refused .notOneCommand

/-- The block's answer to the host's next move; with no move, the block is idle and holds its state (R244, R271). -/
def answerHost (s : State) : Answer :=
  match s.host with
  | [] => .next s
  | .reset :: rest => .next (assertReset { s with host := rest })
  | .take :: rest => .next (takeResponse { s with host := rest })
  | .command bytes :: rest => performCommand bytes { s with host := rest }

/-- The host's next move issues `bytes`, the previous response taken (R240). -/
def issueNext (bytes : List Byte) (s : State) : State :=
  { s with host := .command bytes :: s.host, response := none }

end Sys2Proof.Machine
end

