-- ==== Sys2Proof/Machine/Step.lean ====
section
/-! DEFINITION. One step of the machine: the host's next move and the block's answer to it (spec/00_scope.md R3, R15). -/
namespace Sys2Proof.Machine

/-- One step (R3): one host move, answered in one atomic transaction (R58). -/
def step (s : State) : Host.Outcome State Fault Refusal := answerHost s

/-- `s` with the command whose bits are `w` (every bit above `nbits` zero) as the host's next move (log entry 5). -/
def State.withFetchWord (s : State) (nbits w : Nat) : State := issueNext (tableBytes s.cfg.tsFormat nbits w) s

end Sys2Proof.Machine
end

