-- ==== Sys2Proof/Machine/Stream.lean ====
section
/-! DEFINITION. Byte streams and command sequences: FEED as a left fold of PUSH (spec/45_assembler.md R181;
spec/30_encoding.md R90), and the host's moves for a sequence of commands (R240). -/
namespace Sys2Proof.Machine

/-- FEED (R90, R181): one PUSH per byte, in order; the responses are those of its PUSH commands in order. Nothing
where a PUSH is refused. -/
def feed : List Byte → State → Option (State × List Response)
  | [], s => some (s, [])
  | b :: bs, s =>
    match exec (.push b) s with
    | .next s' => (feed bs s').map fun x => (x.1, s'.response.toList ++ x.2)
    | .fault _ => none
    | .refused _ => none

/-- A sequence of commands, performed in the order issued (R60); each response stands beside its command. Nothing where a
command is refused. -/
def perform : List Instr → State → Option (State × List (Instr × Response))
  | [], s => some (s, [])
  | i :: is, s =>
    match exec i s with
    | .next s' => (perform is s').map fun x => (x.1, s'.response.toList.map (fun r => (i, r)) ++ x.2)
    | .fault _ => none
    | .refused _ => none

/-- The packets among responses (R87). -/
def packetsOf (rs : List Response) : List Packet :=
  rs.filterMap fun r =>
    match r.results with
    | .packet p => some p
    | _ => none

/-- The host performs a sequence of commands: each is issued and its response taken before the next (R240). -/
def hostScript (is : List Instr) : List HostMove := is.flatMap fun i => [.command (encode i), .take]

/-- The commands of a command stream (R80), each as its own bytes; `n` bounds how many. A stream that ends inside a
command gives nothing. -/
def splitStream (fmt : TsFormat) : Nat → List Byte → Option (List (List Byte))
  | _, [] => some []
  | 0, _ :: _ => none
  | n + 1, b :: bs =>
    match decode fmt (b :: bs) with
    | .ok i rest => (splitStream fmt n rest).map (encode i :: ·)
    | .undefinedOpcode o rest => (splitStream fmt n rest).map ([o] :: ·)
    | .incomplete => none

/-- A whole command stream as host moves (R80, R240). -/
def streamScript (fmt : TsFormat) (bs : List Byte) : Option (List HostMove) :=
  (splitStream fmt bs.length bs).map fun cs => cs.flatMap fun c => [.command c, .take]

end Sys2Proof.Machine
end

