-- ==== Sys2Proof/Machine/Listing.lean ====
section
/-! DEFINITION. The mnemonic syntax of listings (spec/30_encoding.md R89) and its pseudo-instructions (R90): one line of
text to the commands it stands for. No meaning and no step uses it. -/
namespace Sys2Proof.Machine

/-- What a line is cut into: words, commas, and byte-sequence literals. -/
inductive Token where
  | word (cs : List Char)
  | comma
  | bytes (bs : List Byte)
deriving DecidableEq, Repr

/-- The brackets of a byte-sequence literal (R89), by character code. -/
def openBytes : Char := Char.ofNat 123

/-- The closing bracket of a byte-sequence literal (R89). -/
def closeBytes : Char := Char.ofNat 125

/-- The digits of R89's integers and hex pairs, each at the position of its value. -/
def digitRow : List Char := "0123456789ABCDEF".toList

/-- A digit's value, of either case (log entry 13). -/
def hexDigit (c : Char) : Option Nat := digitRow.idxOf? c.toUpper

/-- The value of a digit string, `acc` read so far. -/
def digits (base : Nat) : Nat → List Char → Option Nat
  | acc, [] => some acc
  | acc, c :: cs =>
    (hexDigit c).bind fun d => if d < base then digits base (acc * base + d) cs else none

/-- An unsigned integer: decimal, or hexadecimal after `0x` (R89). -/
def parseNat : List Char → Option Nat
  | [] => none
  | '0' :: 'x' :: c :: cs => digits 16 0 (c :: cs)
  | c :: cs => digits 10 0 (c :: cs)

/-- A signed integer (R89: `sec` is a signed decimal). -/
def parseInt : List Char → Option Int
  | '-' :: cs => (parseNat cs).map fun n => -(n : Int)
  | cs => (parseNat cs).map fun n => (n : Int)

/-- An integer that fits an n-bit unsigned operand (R11: out of range is no operand). -/
def parseUnsigned (n : Nat) (cs : List Char) : Option (BitVec n) :=
  (parseNat cs).bind fun v => if v < 2 ^ n then some (BitVec.ofNat n v) else none

/-- An integer that fits an s64 operand. -/
def parseSigned (cs : List Char) : Option S64 :=
  (parseInt cs).bind fun v =>
    if -9223372036854775808 ≤ v ∧ v < 9223372036854775808 then some (BitVec.ofInt 64 v) else none

/-- A hex pair of a byte-sequence literal. -/
def parsePair : List Char → Option Byte
  | [a, b] => (hexDigit a).bind fun x => (hexDigit b).map fun y => BitVec.ofNat 8 (x * 16 + y)
  | _ => none

/-- The word read so far, in front of the tokens after it. -/
def emitWord (w : List Char) (ts : List Token) : List Token := if w = [] then ts else .word w :: ts

/-- The bytes of a literal with the pair read so far after them. -/
def emitPair (w : List Char) (bs : List Byte) : Option (List Byte) :=
  if w = [] then some bs else (parsePair w).map fun b => bs ++ [b]

/-- The tokens of a line: `w` is the word or pair read so far, `inside` the bytes of an open literal. -/
def tokens (w : List Char) (inside : Option (List Byte)) : List Char → Option (List Token)
  | [] =>
    match inside with
    | none => some (emitWord w [])
    | some _ => none
  | c :: cs =>
    match inside with
    | none =>
      if c = ' ' then (tokens [] none cs).map (emitWord w)
      else if c = ',' then (tokens [] none cs).map fun ts => emitWord w (.comma :: ts)
      else if c = openBytes then (tokens [] (some []) cs).map (emitWord w)
      else if c = closeBytes then none
      else tokens (w ++ [c]) none cs
    | some bs =>
      if c = ' ' then (emitPair w bs).bind fun bs' => tokens [] (some bs') cs
      else if c = closeBytes then (emitPair w bs).bind fun bs' => (tokens [] none cs).map (.bytes bs' :: ·)
      else tokens (w ++ [c]) (some bs) cs

/-- A literal of exactly eight bytes. -/
def octetsOf (bs : List Byte) : Option Octets :=
  match takeOctets bs with
  | some (t, []) => some t
  | _ => none

/-- A literal of exactly sixteen bytes. -/
def headerBytesOf (bs : List Byte) : Option HeaderBytes :=
  match takeHeader bs with
  | some (h, []) => some h
  | _ => none

/-- A literal of at most 65535 bytes; its length gives `L`. -/
def varOf (bs : List Byte) : Option (List Byte) := if lengthFits bs then some bs else none

/-- An instant: `sec, frac` with NTP, a bit pattern with F64 (R89). -/
def parseInstant : TsFormat → List Token → Option Instant
  | .ntp, [.word sec, .comma, .word frac] =>
    (parseSigned sec).bind fun x => (parseUnsigned 32 frac).map fun y => .ntp x y
  | .f64, [.word d] => (parseUnsigned 64 d).map .f64
  | _, _ => none

/-- The commands of one line's tokens (R89, R90). -/
def parseCommand (fmt : TsFormat) : List Token → Option (List Instr)
  | [] => some []
  | .word m :: args =>
    match String.ofList m, args with
    | "PUSH", [.word b] => (parseUnsigned 8 b).map fun b => [.push b]
    | "EOS", [] => some [.eos]
    | "FLUSH", [] => some [.flush]
    | "SETMODE", [.word b] => (parseUnsigned 8 b).map fun b => [.setmode b]
    | "QUERY", [] => some [.query]
    | "HPACK", [.word ty, .comma, .word pl, .comma, .word cs, .comma, .bytes t] =>
      (parseUnsigned 8 ty).bind fun ty => (parseUnsigned 16 pl).bind fun pl => (parseUnsigned 16 cs).bind fun cs =>
        (octetsOf t).map fun t => [.hpack ty pl cs t]
    | "HUNPACK", [.bytes h] => (headerBytesOf h).map fun h => [.hunpack h]
    | "CSUM", [.bytes v] => (varOf v).map fun v => [.csum v]
    | "CVERIFY", [.bytes v] => (varOf v).map fun v => [.cverify v]
    | "TSENC", ts => (parseInstant fmt ts).map fun I => [.tsenc I]
    | "TSDEC", [.bytes t] => (octetsOf t).map fun t => [.tsdec t]
    | "TYPENAME", [.word c] => (parseUnsigned 8 c).map fun c => [.typename c]
    | "ENCODE", .word ty :: .comma :: .bytes v :: .comma :: ts =>
      (parseUnsigned 8 ty).bind fun ty => (varOf v).bind fun v => (parseInstant fmt ts).map fun I => [.encode ty v I]
    | "FEED", [.bytes bs] => some (pseudoFeed bs)
    | "STRICT", [] => some [pseudoStrict]
    | "LENIENT", [] => some [pseudoLenient]
    | _, _ => none
  | _ => none

/-- The commands of one line of a listing, the comment after `;` left out (R89). -/
def assembleLine (fmt : TsFormat) (line : List Char) : Option (List Instr) :=
  (tokens [] none (line.takeWhile (· ≠ ';'))).bind (parseCommand fmt)

/-- The commands of a listing, line by line (R89). -/
def assemble (fmt : TsFormat) : List (List Char) → Option (List Instr)
  | [] => some []
  | l :: ls => (assembleLine fmt l).bind fun is => (assemble fmt ls).map (is ++ ·)

end Sys2Proof.Machine
end

