-- ==== Sys2Proof/Machine/Responses.lean ====
section
/-! DEFINITION. The serialization of responses (spec/30_encoding.md R80, R86, R87; spec/60_exceptions.md R231). -/
namespace Sys2Proof.Machine

/-- The status code (R231). -/
def Status.code : Status → Byte
  | .ok => 0x00
  | .truncatedFrame => 0x01
  | .checksumMismatch => 0x02
  | .unknownMessageType => 0x03
  | .syncMismatch => 0x04
  | .payloadTooLong => 0x05
  | .timestampOutOfRange => 0x06
  | .badLength => 0x07
  | .illegalCommand => 0x08

/-- A flag as a u8: 1 or 0 (R86). -/
def flagU8 (b : Bool) : Byte := if b then 1 else 0

/-- The bytes of a packet record (R87). -/
def Packet.bytes (p : Packet) : List Byte :=
  [p.ty, p.flags] ++ bytes16 p.ps ++ bytes16 p.cs ++ p.t.bytes ++ p.payload

/-- The bytes of a HUNPACK result (R86). -/
def HeaderRecord.bytes (r : HeaderRecord) : List Byte :=
  [r.ty, r.flags] ++ bytes16 r.ps ++ bytes16 r.cs ++ r.t.bytes

/-- The results in the order of R86; the first byte of a PUSH result is its event `ev`. -/
def Results.bytes : Results → List Byte
  | .none => []
  | .nothingCompleted => [0]
  | .packet p => 1 :: p.bytes
  | .discarded ps => 2 :: bytes16 ps
  | .mismatch stored computed => bytes16 stored ++ bytes16 computed
  | .truncated tag len => tag.code :: bytes16 len
  | .state tag len ctrl cfg => tag.code :: bytes16 len ++ [ctrl, cfg]
  | .header h => h.bytes
  | .unpacked r => r.bytes
  | .checksum c => bytes16 c
  | .verdict ok stored computed => flagU8 ok :: bytes16 stored ++ bytes16 computed
  | .field t => t.bytes
  | .instant I => I.bytes
  | .typeName known name => [flagU8 known, name]
  | .frame ps f => bytes16 ps ++ f

/-- A response is its status byte followed by its results (R80). -/
def Response.bytes (r : Response) : List Byte := r.status.code :: r.results.bytes

end Sys2Proof.Machine
end

