-- ==== Sys2Proof/Safety.lean ====
section
/-! DEFINITION. What a safe run is, in the terms the statements use: the invariant of every reachable state
(spec/10_state.md R24), and the host's duties (spec/60_exceptions.md R240). -/
namespace Sys2Proof.Machine

/-- The machine's invariant. Before the first reset nothing is known of the block's state (R262); from then on it is
one R24 allows, with CTRL's reserved bits 0 (R27). -/
def Inv (s : State) : Prop := s.wasReset = true → s.wf = true

/-- The bytes are the serialization of one command, of a defined or of an undefined opcode (R80, R84). -/
def oneCommand (fmt : TsFormat) (bytes : List Byte) : Bool :=
  match decode fmt bytes with
  | .ok _ [] => true
  | .ok _ (_ :: _) => false
  | .undefinedOpcode _ _ => true
  | .incomplete => false

/-- The host's moves keep its duties (R240): reset before the first command, and each response taken before the next
command. `wasReset` says whether reset has been asserted, `pending` whether a response is outstanding. -/
def keepsDuties (fmt : TsFormat) (wasReset pending : Bool) : List HostMove → Bool
  | [] => true
  | .reset :: rest => keepsDuties fmt true pending rest
  | .take :: rest => keepsDuties fmt wasReset false rest
  | .command bytes :: rest =>
    wasReset && !pending && oneCommand fmt bytes && keepsDuties fmt wasReset true rest

/-- The host of this state keeps its duties from here on. -/
def dutiful (s : State) : Bool := keepsDuties s.cfg.tsFormat s.wasReset s.response.isSome s.host

/-- A command of a unit that holds no state (R33): REGISTRY, TSCODEC, the CSUM engine, HDRCODEC, ENCODER. -/
def isPure : Instr → Bool
  | .push _ => false
  | .eos => false
  | .flush => false
  | .setmode _ => false
  | .query => false
  | .hpack _ _ _ _ => true
  | .hunpack _ => true
  | .csum _ => true
  | .cverify _ => true
  | .tsenc _ => true
  | .tsdec _ => true
  | .typename _ => true
  | .encode _ _ _ => true

end Sys2Proof.Machine
end

