-- ==== Sys2Proof/Certificates/Slice0/Obligations.lean ====
section
/-! DEFINITION. The statements for the provers. Each docstring names the rule of spec/ it formalises. -/
open Sys2Proof Sys2Proof.Machine

/-! ## Encoding -/

/-- R80, R81, R83: decoding the serialization of any well-formed command gives that command back, with every operand, and
leaves the bytes after it. -/
def Obligations.DecodeReadsWhatEncodeWrites : Prop :=
  ∀ (fmt : TsFormat) (i : Instr) (rest : List Byte), i.wf fmt = true → decode fmt (encode i ++ rest) = .ok i rest

/-- R80, R81, R83: the other direction. Every byte string the decoder reads a command from begins with the serialization
of that command, which is well formed. -/
def Obligations.DecodedBytesAreTheEncoding : Prop :=
  ∀ (fmt : TsFormat) (bs rest : List Byte) (i : Instr),
    decode fmt bs = .ok i rest → bs = encode i ++ rest ∧ i.wf fmt = true

/-- R91: the worked encodings, as words. -/
def Obligations.WorkedEncodingsDecode : Prop :=
  decode .ntp [0x01, 0xA3] = .ok (.push 0xA3) [] ∧
  decode .ntp [0x02] = .ok .eos [] ∧
  decode .ntp [0x04, 0x01] = .ok pseudoStrict [] ∧
  decode .ntp [0x05] = .ok .query [] ∧
  decode .ntp [0x40, 0x07] = .ok (.typename 7) [] ∧
  decode .ntp [0x31, 0, 0, 0, 0, 0, 0, 0, 0] = .ok (.tsdec ⟨0, 0, 0, 0, 0, 0, 0, 0⟩) [] ∧
  decode .ntp [0x20, 0x00, 0x10, 0xA3, 0x9D, 0x7A, 0x01, 0x00, 0x10, 0, 0, 0, 0, 0, 0, 0, 0, 0, 0] =
    .ok (.csum [0xA3, 0x9D, 0x7A, 0x01, 0x00, 0x10, 0, 0, 0, 0, 0, 0, 0, 0, 0, 0]) [] ∧
  decode .ntp [0x50, 0x07, 0, 0, 0, 0, 0, 0, 0, 0, 0, 0, 0, 0, 0, 0] = .ok (.encode 7 [] (.ntp 0 0)) []

/-- R231: the codes of the statuses; no status has a reserved code. -/
def Obligations.StatusCodesAreThoseOfTheTable : Prop :=
  Status.ok.code = 0x00 ∧ Status.truncatedFrame.code = 0x01 ∧ Status.checksumMismatch.code = 0x02 ∧
  Status.unknownMessageType.code = 0x03 ∧ Status.syncMismatch.code = 0x04 ∧ Status.payloadTooLong.code = 0x05 ∧
  Status.timestampOutOfRange.code = 0x06 ∧ Status.badLength.code = 0x07 ∧ Status.illegalCommand.code = 0x08 ∧
  ∀ r : Response, ∃ c rest, r.bytes = c :: rest ∧ c.toNat ≤ 8

/-! ## Steps -/

/-- R3, R79, log entry 2: a step on an issued command that decodes to `i` is `exec i`, the host's move made. Stated for a state that has
been reset, whose last response is taken and that meets R24 (R262, U22, U1). -/
def Obligations.StepRunsTheDecodedCommand : Prop :=
  ∀ (s : State) (bytes : List Byte) (rest : List HostMove) (i : Instr),
    s.host = .command bytes :: rest → decode s.cfg.tsFormat bytes = .ok i [] →
    s.wasReset = true → s.response = none → s.wf = true →
    step s = exec i { s with host := rest }

/-- R3, R79, R80: a step on the serialization of any well-formed command runs that command. -/
def Obligations.StepRunsTheEncodedCommand : Prop :=
  ∀ (s : State) (rest : List HostMove) (i : Instr),
    s.host = .command (encode i) :: rest → i.wf s.cfg.tsFormat = true →
    s.wasReset = true → s.response = none → s.wf = true →
    step s = exec i { s with host := rest }

/-- R84: a command of an undefined opcode, which has no operands, responds IllegalCommand and writes no state. -/
def Obligations.UndefinedOpcodesRespondIllegalCommand : Prop :=
  ∀ (s : State) (o : Byte) (rest : List HostMove),
    o = 0x00 ∨ (0x06 ≤ o.toNat ∧ o.toNat ≤ 0x0F) ∨ (0x12 ≤ o.toNat ∧ o.toNat ≤ 0x1F) ∨
      (0x22 ≤ o.toNat ∧ o.toNat ≤ 0x2F) ∨ (0x32 ≤ o.toNat ∧ o.toNat ≤ 0x3F) ∨
      (0x41 ≤ o.toNat ∧ o.toNat ≤ 0x4F) ∨ 0x51 ≤ o.toNat →
    s.host = .command [o] :: rest →
    s.wasReset = true → s.response = none → s.wf = true →
    step s = .next { s with host := rest, response := some ⟨.illegalCommand, .none⟩ }

/-- R260, R265: the reset action. It writes SEEK, an empty buffer and CTRL = 0, produces no response, leaves CFG, gives a
state of R24, and the block then accepts any command. That an outstanding response stays outstanding is log entry 16
(DEDUCED from R265), and that the machine then counts as reset is log entry 3 (DESIGN CHOICE). -/
def Obligations.ResetWritesTheResetValues : Prop :=
  ∀ (s : State) (rest : List HostMove), s.host = .reset :: rest →
    ∃ t, step s = .next t ∧ t.tag = .seek ∧ t.buf = [] ∧ t.ctrl = 0x00 ∧ t.cfg = s.cfg ∧
      t.response = s.response ∧ t.host = rest ∧ t.wasReset = true ∧ t.wf = true ∧
      ∀ i : Instr, i.wf t.cfg.tsFormat = true →
        ∃ u, step { t with host := [.command (encode i)], response := none } = .next u

/-- R32, R7: the state after reset of the instance the spec names (NTP, log entry 1). -/
def Obligations.ResetStateHoldsTheResetValues : Prop :=
  State.reset.tag = .seek ∧ State.reset.buf = [] ∧ State.reset.ctrl = 0x00 ∧
  State.reset.cfg.tsFormat = .ntp ∧ State.reset.wasReset = true ∧ State.reset.response = none ∧
  readCtrl State.reset = 0x00 ∧ readCfg State.reset = 0x00

/-- R244, R240: with no host move the block holds its state, and taking a response changes nothing but the
response. The host's `take` is the model's form of R240's duty (log entries 2 and 9). -/
def Obligations.IdleAndTakeHoldTheState : Prop :=
  (∀ s : State, s.host = [] → step s = .next s) ∧
  ∀ (s : State) (rest : List HostMove), s.host = .take :: rest →
    step s = .next { s with host := rest, response := none }

/-- R262, R240, R24 (93_implementation_defined.md U1, U2, U22): a command before the first reset, one issued before the
last response is taken, and one on a state no run reaches are given no meaning. The names of the refusals are the model's (log entries 2, 3 and 4). -/
def Obligations.CommandsOutsideTheDutiesAreRefused : Prop :=
  ∀ (s : State) (bytes : List Byte) (rest : List HostMove), s.host = .command bytes :: rest →
    (s.wasReset = false → step s = .refused .beforeFirstReset) ∧
    (s.wasReset = true → s.response ≠ none → step s = .refused .responseNotTaken) ∧
    (s.wasReset = true → s.response = none → s.wf = false → step s = .refused .illFormedState)

/-! ## The assembler -/

/-- R171 in SEEK: the window grows to three bytes, becomes a frame when it is SYNC, and otherwise drops its oldest byte. -/
def Obligations.PushSeeksTheMarker : Prop :=
  ∀ (s : State) (b : Byte), s.tag = .seek → s.buf.length ≤ 2 →
    exec (.push b) s = .next { s with
      tag := if s.buf ++ [b] = [0xA3, 0x9D, 0x7A] then .hdr else .seek
      buf := if s.buf.length ≤ 1 ∨ s.buf ++ [b] = [0xA3, 0x9D, 0x7A] then s.buf ++ [b] else s.buf.drop 1 ++ [b]
      response := some ⟨.ok, .nothingCompleted⟩ }

/-- R171 in HDR, before the sixteenth byte: the byte is counted and nothing else changes. -/
def Obligations.PushCollectsTheHeader : Prop :=
  ∀ (s : State) (b : Byte), s.tag = .hdr → s.buf.length ≤ 14 →
    exec (.push b) s = .next { s with buf := s.buf ++ [b], response := some ⟨.ok, .nothingCompleted⟩ }

/-- R172: the sixteenth byte of a frame. packetSize below 16 discards the frame with event 2 and status OK; above 16 the
assembler goes on to the payload. -/
def Obligations.PushEndsTheHeader : Prop :=
  ∀ (s : State) (b ty p1 p0 c1 c0 : Byte) (t : Octets), s.tag = .hdr →
    s.buf ++ [b] = [0xA3, 0x9D, 0x7A, ty, p1, p0, c1, c0] ++ t.bytes →
    (p1.toNat * 256 + p0.toNat < 16 →
      exec (.push b) s = .next { s with
        tag := .seek, buf := [], response := some ⟨.ok, .discarded (be16 p1 p0)⟩ }) ∧
    (16 < p1.toNat * 256 + p0.toNat →
      exec (.push b) s = .next { s with
        tag := .pay, buf := s.buf ++ [b], response := some ⟨.ok, .nothingCompleted⟩ })

/-- R173: in PAY, a byte before the last of the frame is counted and nothing else changes. -/
def Obligations.PushCollectsThePayload : Prop :=
  ∀ (s : State) (b ty p1 p0 c1 c0 : Byte) (t : Octets) (payload : List Byte), s.tag = .pay →
    s.buf ++ [b] = [0xA3, 0x9D, 0x7A, ty, p1, p0, c1, c0] ++ t.bytes ++ payload →
    16 + payload.length < p1.toNat * 256 + p0.toNat →
    exec (.push b) s = .next { s with buf := s.buf ++ [b], response := some ⟨.ok, .nothingCompleted⟩ }

/-- R172, R173, R174, R175: the last byte of a frame, in HDR (packetSize = 16) and in PAY. In strict mode a mismatching
frame is rejected with both checksums; otherwise the packet is emitted, with its flags. The assembler is empty after it. -/
def Obligations.PushCompletesTheFrame : Prop :=
  ∀ (s : State) (b ty p1 p0 c1 c0 : Byte) (t : Octets) (payload : List Byte),
    (s.tag = .hdr ∧ payload = []) ∨ s.tag = .pay →
    s.buf ++ [b] = [0xA3, 0x9D, 0x7A, ty, p1, p0, c1, c0] ++ t.bytes ++ payload →
    16 + payload.length = p1.toNat * 256 + p0.toNat →
    (s.ctrl.getLsbD 0 = true → be16 c1 c0 ≠ fold (s.buf ++ [b]) →
      exec (.push b) s = .next { s with
        tag := .seek, buf := []
        response := some ⟨.checksumMismatch, .mismatch (be16 c1 c0) (fold (s.buf ++ [b]))⟩ }) ∧
    (s.ctrl.getLsbD 0 = false ∨ be16 c1 c0 = fold (s.buf ++ [b]) →
      exec (.push b) s = .next { s with
        tag := .seek, buf := []
        response := some ⟨.ok, .packet
          { ty := ty
            flags := (if be16 c1 c0 = fold (s.buf ++ [b]) then 0x01 else 0x00) |||
              (if 1 ≤ ty.toNat ∧ ty.toNat ≤ 9 then 0x02 else 0x00)
            ps := be16 p1 p0, cs := be16 c1 c0, t := t, payload := payload }⟩ })

/-- R176: EOS empties the assembler; it reports TruncatedFrame, with tag and length before it, from HDR and PAY only. -/
def Obligations.EosReportsATruncatedFrame : Prop :=
  encode .eos = [0x02] ∧
  ∀ s : State,
    (s.tag = .seek → exec .eos s = .next { s with tag := .seek, buf := [], response := some ⟨.ok, .none⟩ }) ∧
    (s.tag ≠ .seek → exec .eos s = .next { s with
      tag := .seek, buf := []
      response := some ⟨.truncatedFrame, .truncated s.tag (BitVec.ofNat 16 s.buf.length)⟩ })

/-- R177: FLUSH empties the assembler without a report; CTRL is not changed. -/
def Obligations.FlushEmptiesTheAssembler : Prop :=
  encode .flush = [0x03] ∧
  ∀ s : State, exec .flush s = .next { s with tag := .seek, buf := [], response := some ⟨.ok, .none⟩ }

/-- R178: SETMODE writes STRICT; with a reserved bit set it is IllegalCommand and writes nothing. -/
def Obligations.SetmodeWritesStrict : Prop :=
  ∀ (s : State) (m : Byte),
    encode (.setmode m) = [0x04, m] ∧
    (m.toNat ≤ 1 → exec (.setmode m) s = .next { s with ctrl := m, response := some ⟨.ok, .none⟩ }) ∧
    (2 ≤ m.toNat → exec (.setmode m) s = .next { s with response := some ⟨.illegalCommand, .none⟩ })

/-- R179, R27, R28, R23: QUERY reports the tag, the length, CTRL and CFG and writes no state. -/
def Obligations.QueryReportsTheState : Prop :=
  encode .query = [0x05] ∧
  ∀ s : State, s.wf = true →
    exec .query s = .next { s with
      response := some ⟨.ok, .state s.tag (BitVec.ofNat 16 s.buf.length) s.ctrl
        (match s.cfg.tsFormat with | .ntp => 0x00 | .f64 => 0x01)⟩ }

/-- R267, R174: a SETMODE in the middle of a frame leaves the frame in progress and decides it at its last byte. -/
def Obligations.ModeChangeReachesTheFrameInProgress : Prop :=
  ∀ (s : State) (m b ty p1 p0 c1 c0 : Byte) (t : Octets) (payload : List Byte),
    m.toNat ≤ 1 → (s.tag = .hdr ∧ payload = []) ∨ s.tag = .pay →
    s.buf ++ [b] = [0xA3, 0x9D, 0x7A, ty, p1, p0, c1, c0] ++ t.bytes ++ payload →
    16 + payload.length = p1.toNat * 256 + p0.toNat → be16 c1 c0 ≠ fold (s.buf ++ [b]) →
    ∃ u v, exec (.setmode m) s = .next u ∧ u.tag = s.tag ∧ u.buf = s.buf ∧ exec (.push b) u = .next v ∧
      (m = 1 → v.response = some ⟨.checksumMismatch, .mismatch (be16 c1 c0) (fold (s.buf ++ [b]))⟩) ∧
      (m = 0 → ∃ p, v.response = some ⟨.ok, .packet p⟩ ∧ p.flags.getLsbD 0 = false)

/-- R264: the three ways of emptying the assembler differ in CTRL and in what they report, and leave CFG: EOS reports
TruncatedFrame from HDR and PAY and OK from SEEK, FLUSH reports OK, and reset gives no response. That a response already
outstanding stays outstanding across reset is log entry 16 (DEDUCED from R265). -/
def Obligations.ThreeWaysOfEmptyingTheAssembler : Prop :=
  ∀ (s : State) (rest : List HostMove),
    (∃ t, exec .eos s = .next t ∧ t.tag = .seek ∧ t.buf = [] ∧ t.ctrl = s.ctrl ∧ t.cfg = s.cfg ∧
      (s.tag = .seek → t.response = some ⟨.ok, .none⟩) ∧
      (s.tag ≠ .seek → t.response = some ⟨.truncatedFrame, .truncated s.tag (BitVec.ofNat 16 s.buf.length)⟩)) ∧
    (∃ t, exec .flush s = .next t ∧ t.tag = .seek ∧ t.buf = [] ∧ t.ctrl = s.ctrl ∧ t.cfg = s.cfg ∧
      t.response = some ⟨.ok, .none⟩) ∧
    (∃ t, step { s with host := .reset :: rest } = .next t ∧ t.tag = .seek ∧ t.buf = [] ∧ t.ctrl = 0x00 ∧
      t.cfg = s.cfg ∧ t.response = s.response)

/-! ## The stateless units -/

/-- R101: TYPENAME looks up a message-type code; an unknown code is a result, not a failure. -/
def Obligations.TypenameLooksUpTheCode : Prop :=
  ∀ (code : Byte) (s : State),
    encode (.typename code) = [0x40, code] ∧
    (1 ≤ code.toNat ∧ code.toNat ≤ 9 →
      exec (.typename code) s = .next { s with response := some ⟨.ok, .typeName true code⟩ }) ∧
    (code = 0 ∨ 10 ≤ code.toNat →
      exec (.typename code) s = .next { s with response := some ⟨.ok, .typeName false 0⟩ })

/-- R100: the registry's nine names, and their name indexes. -/
def Obligations.RegistryPairsCodesWithNames : Prop :=
  [1, 2, 3, 4, 5, 6, 7, 8, 9].map (fun c : Byte => (nameOf c).text) =
    ["DataFromInstrument", "DataFromDriver", "PortAgentCommand", "PortAgentStatus", "PortAgentFault",
      "InstrumentCommand", "Heartbeat", "PickledDataFromInstrument", "PickledDataFromDriver"] ∧
  (∀ code : Byte, 1 ≤ code.toNat ∧ code.toNat ≤ 9 → (nameOf code).index = code) ∧
  ∀ code : Byte, code = 0 ∨ 10 ≤ code.toNat → (nameOf code).text = "Unknown" ∧ (nameOf code).index = 0

/-- R112: TSENC on an NTP instance. The field's first four bytes are seconds since 1900, its last four the fraction; a time
outside the u32 range is TimestampOutOfRange. -/
def Obligations.TsencEncodesNtp : Prop :=
  ∀ (sec : S64) (frac : U32) (s : State), s.cfg.tsFormat = .ntp →
    encode (.tsenc (.ntp sec frac)) = 0x30 :: (bytes64 sec ++ bytes32 frac) ∧
    (sec.toInt < -2208988800 ∨ 2085978495 < sec.toInt →
      exec (.tsenc (.ntp sec frac)) s = .next { s with response := some ⟨.timestampOutOfRange, .none⟩ }) ∧
    (-2208988800 ≤ sec.toInt ∧ sec.toInt ≤ 2085978495 →
      ∃ t : Octets, exec (.tsenc (.ntp sec frac)) s = .next { s with response := some ⟨.ok, .field t⟩ } ∧
        (t.b0.toNat * 2 ^ 24 + t.b1.toNat * 2 ^ 16 + t.b2.toNat * 2 ^ 8 + t.b3.toNat : Int) = sec.toInt + 2208988800 ∧
        t.b4.toNat * 2 ^ 24 + t.b5.toNat * 2 ^ 16 + t.b6.toNat * 2 ^ 8 + t.b7.toNat = frac.toNat)

/-- R113: TSENC on an F64 instance carries the bit pattern unchanged, most significant byte first. -/
def Obligations.TsencCarriesF64 : Prop :=
  ∀ (d : U64) (s : State), s.cfg.tsFormat = .f64 →
    encode (.tsenc (.f64 d)) = 0x30 :: bytes64 d ∧
    ∃ t : Octets, exec (.tsenc (.f64 d)) s = .next { s with response := some ⟨.ok, .field t⟩ } ∧
      t.b0.toNat * 2 ^ 56 + t.b1.toNat * 2 ^ 48 + t.b2.toNat * 2 ^ 40 + t.b3.toNat * 2 ^ 32 + t.b4.toNat * 2 ^ 24 +
        t.b5.toNat * 2 ^ 16 + t.b6.toNat * 2 ^ 8 + t.b7.toNat = d.toNat

/-- R114: TSDEC on an NTP instance. Every field decodes; `sec` is the field's seconds less the epoch offset. -/
def Obligations.TsdecDecodesNtp : Prop :=
  ∀ (t : Octets) (s : State), s.cfg.tsFormat = .ntp →
    encode (.tsdec t) = [0x31, t.b0, t.b1, t.b2, t.b3, t.b4, t.b5, t.b6, t.b7] ∧
    ∃ sec frac, exec (.tsdec t) s = .next { s with response := some ⟨.ok, .instant (.ntp sec frac)⟩ } ∧
      sec.toInt = (t.b0.toNat * 2 ^ 24 + t.b1.toNat * 2 ^ 16 + t.b2.toNat * 2 ^ 8 + t.b3.toNat : Int) - 2208988800 ∧
      frac.toNat = t.b4.toNat * 2 ^ 24 + t.b5.toNat * 2 ^ 16 + t.b6.toNat * 2 ^ 8 + t.b7.toNat ∧
      -2208988800 ≤ sec.toInt ∧ sec.toInt ≤ 2085978495

/-- R115: TSDEC on an F64 instance gives the bit pattern, every field, NaN patterns among them. -/
def Obligations.TsdecCarriesF64 : Prop :=
  ∀ (t : Octets) (s : State), s.cfg.tsFormat = .f64 →
    encode (.tsdec t) = [0x31, t.b0, t.b1, t.b2, t.b3, t.b4, t.b5, t.b6, t.b7] ∧
    ∃ d, exec (.tsdec t) s = .next { s with response := some ⟨.ok, .instant (.f64 d)⟩ } ∧
      d.toNat = t.b0.toNat * 2 ^ 56 + t.b1.toNat * 2 ^ 48 + t.b2.toNat * 2 ^ 40 + t.b3.toNat * 2 ^ 32 +
        t.b4.toNat * 2 ^ 24 + t.b5.toNat * 2 ^ 16 + t.b6.toNat * 2 ^ 8 + t.b7.toNat

/-- R116: the codec round-trips exactly, in both directions, on the instance's representation. -/
def Obligations.TimestampsRoundTrip : Prop :=
  (∀ (t : Octets) (s : State), ∃ I,
    exec (.tsdec t) s = .next { s with response := some ⟨.ok, .instant I⟩ } ∧
    exec (.tsenc I) s = .next { s with response := some ⟨.ok, .field t⟩ }) ∧
  ∀ (I : Instant) (t : Octets) (s : State),
    exec (.tsenc I) s = .next { s with response := some ⟨.ok, .field t⟩ } →
    exec (.tsdec t) s = .next { s with response := some ⟨.ok, .instant I⟩ }

/-- R117: the instant a host makes of a finer time is below it by less than 2^-32 s, and TSENC accepts it for every time
from 1900 on and before 2^32 seconds after it. -/
def Obligations.FinerTimesAreFloored : Prop :=
  ∀ time : Rat, -2208988800 ≤ time → time < 2085978496 →
    ∃ I u t, instantOfTime time = some I ∧ timeOf I = some u ∧ u ≤ time ∧ time - u < 1 / 4294967296 ∧
      encodeInstant .ntp I = .field t

/-- R130: the fold is the XOR of the bytes at every offset but 6 and 7, zero-extended to 16 bits. -/
def Obligations.FoldSkipsOffsetsSixAndSeven : Prop :=
  ∀ f : List Byte,
    fold f = ((((List.range f.length).filter (fun i => decide (i ≠ 6 ∧ i ≠ 7))).map (fun i => f.getD i 0)).foldl
      (fun acc b => acc ^^^ b) 0).setWidth 16 ∧
    (fold f).toNat ≤ 0x00FF

/-- R131: CSUM answers the fold, or BadLength below 16 bytes, and checks nothing else. -/
def Obligations.CsumAnswersTheFold : Prop :=
  ∀ (v : List Byte) (s : State),
    encode (.csum v) = 0x20 :: (bytes16 (BitVec.ofNat 16 v.length) ++ v) ∧
    (v.length < 16 → exec (.csum v) s = .next { s with response := some ⟨.badLength, .none⟩ }) ∧
    (16 ≤ v.length → exec (.csum v) s = .next { s with response := some ⟨.ok, .checksum (fold v)⟩ })

/-- R132, R133: CVERIFY compares the stored field with the fold and answers both; BadLength below 16 bytes. -/
def Obligations.CverifyComparesTheStoredChecksum : Prop :=
  ∀ (v : List Byte) (s : State),
    encode (.cverify v) = 0x21 :: (bytes16 (BitVec.ofNat 16 v.length) ++ v) ∧
    (v.length < 16 → exec (.cverify v) s = .next { s with response := some ⟨.badLength, .none⟩ }) ∧
    ∀ (c1 c0 : Byte), 16 ≤ v.length → v[6]? = some c1 → v[7]? = some c0 →
      exec (.cverify v) s = .next { s with
        response := some ⟨.ok, .verdict (decide (be16 c1 c0 = fold v)) (be16 c1 c0) (fold v)⟩ }

/-- R134 (a), (b): CVERIFY's verdict on a frame that verifies turns to 0 when any one bit of it is changed. -/
def Obligations.SingleBitErrorsAreDetected : Prop :=
  ∀ (f : List Byte) (i k : Nat) (s : State) (st c : U16), i < f.length → k < 8 →
    exec (.cverify f) s = .next { s with response := some ⟨.ok, .verdict true st c⟩ } →
    ∃ st' c', exec (.cverify (f.set i (f.getD i 0 ^^^ BitVec.twoPow 8 k))) s =
      .next { s with response := some ⟨.ok, .verdict false st' c'⟩ }

/-- R134 (c): what the checksum does not detect. The same bits changed in two bytes, a reordering outside offsets 6 and 7,
and the insertion beyond offset 7 of a zero byte or of two equal bytes leave the fold as it was. -/
def Obligations.ChecksumIsWeak : Prop :=
  ∀ (pre p q r : List Byte) (c1 c0 a b x : Byte), pre.length = 6 →
    fold (pre ++ c1 :: c0 :: (p ++ 0 :: q)) = fold (pre ++ c1 :: c0 :: (p ++ q)) ∧
    fold (pre ++ c1 :: c0 :: (p ++ a :: (q ++ a :: r))) = fold (pre ++ c1 :: c0 :: (p ++ (q ++ r))) ∧
    fold (pre ++ c1 :: c0 :: (p ++ (a ^^^ x) :: (q ++ (b ^^^ x) :: r))) =
      fold (pre ++ c1 :: c0 :: (p ++ a :: (q ++ b :: r))) ∧
    ∀ (pre' post post' : List Byte), pre'.length = 6 → (pre ++ post).Perm (pre' ++ post') →
      fold (pre ++ c1 :: c0 :: post) = fold (pre' ++ c1 :: c0 :: post')

/-- R135: the XOR of all bytes of a frame that verifies, offsets 6 and 7 included, is 0. -/
def Obligations.VerifiedFramesXorToZero : Prop :=
  ∀ (f : List Byte) (s : State) (st c : U16),
    exec (.cverify f) s = .next { s with response := some ⟨.ok, .verdict true st c⟩ } →
    f.foldl (fun acc b => acc ^^^ b) 0 = 0

/-- R26: a running accumulator, updated with each byte appended after the checksum field, equals the fold. -/
def Obligations.RunningAccumulatorEqualsTheFold : Prop :=
  ∀ (f : List Byte) (b : Byte), 8 ≤ f.length → fold (f ++ [b]) = fold f ^^^ b.setWidth 16

/-- R151: HPACK lays the header out at its offsets, with packetSize = 16 + pl, or answers PayloadTooLong. -/
def Obligations.HpackLaysOutTheHeader : Prop :=
  ∀ (ty : Byte) (pl cs : U16) (t : Octets) (s : State),
    encode (.hpack ty pl cs t) = 0x10 :: ty :: (bytes16 pl ++ bytes16 cs ++ t.bytes) ∧
    (65519 < pl.toNat →
      exec (.hpack ty pl cs t) s = .next { s with response := some ⟨.payloadTooLong, .none⟩ }) ∧
    (pl.toNat ≤ 65519 →
      ∃ h ps, exec (.hpack ty pl cs t) s = .next { s with response := some ⟨.ok, .header h⟩ } ∧
        ps.toNat = 16 + pl.toNat ∧
        h.bytes = [0xA3, 0x9D, 0x7A, ty] ++ bytes16 ps ++ bytes16 cs ++ t.bytes)

/-- R152: HUNPACK reads the fields at their offsets, checks the sync marker only and verifies nothing. -/
def Obligations.HunpackReadsTheFields : Prop :=
  ∀ (a b c ty p1 p0 c1 c0 : Byte) (t : Octets) (s : State),
    encode (.hunpack ⟨a, b, c, ty, be16 p1 p0, be16 c1 c0, t⟩) =
      [0x11, a, b, c, ty, p1, p0, c1, c0] ++ t.bytes ∧
    ([a, b, c] = [0xA3, 0x9D, 0x7A] →
      exec (.hunpack ⟨a, b, c, ty, be16 p1 p0, be16 c1 c0, t⟩) s = .next { s with
        response := some ⟨.ok, .unpacked
          ⟨ty, if 1 ≤ ty.toNat ∧ ty.toNat ≤ 9 then 0x02 else 0x00, be16 p1 p0, be16 c1 c0, t⟩⟩ }) ∧
    ([a, b, c] ≠ [0xA3, 0x9D, 0x7A] →
      exec (.hunpack ⟨a, b, c, ty, be16 p1 p0, be16 c1 c0, t⟩) s = .next { s with
        response := some ⟨.syncMismatch, .none⟩ })

/-- R153: packing and unpacking are inverse, in both directions. -/
def Obligations.HeadersRoundTrip : Prop :=
  (∀ (ty : Byte) (pl cs : U16) (t : Octets) (s : State), pl.toNat ≤ 65519 →
    ∃ h ps, exec (.hpack ty pl cs t) s = .next { s with response := some ⟨.ok, .header h⟩ } ∧
      exec (.hunpack h) s = .next { s with
        response := some ⟨.ok, .unpacked ⟨ty, if known ty then 0x02 else 0x00, ps, cs, t⟩⟩ } ∧
      ps.toNat = 16 + pl.toNat) ∧
  ∀ (h : HeaderBytes) (s : State), [h.s0, h.s1, h.s2] = [0xA3, 0x9D, 0x7A] → 16 ≤ h.ps.toNat →
    exec (.hpack h.ty (h.ps - 16) h.cs h.t) s = .next { s with response := some ⟨.ok, .header h⟩ }

/-- R210, R211: ENCODE builds the frame: SYNC, type, packetSize, the fold of the frame with a zero checksum field, the
timestamp TSENC gives, and the payload. -/
def Obligations.EncodeBuildsTheFrame : Prop :=
  ∀ (ty : Byte) (v : List Byte) (I : Instant) (s : State),
    encode (.encode ty v I) = 0x50 :: ty :: (bytes16 (BitVec.ofNat 16 v.length) ++ v ++ I.bytes) ∧
    (1 ≤ ty.toNat → ty.toNat ≤ 9 → v.length ≤ 65519 → I.format = s.cfg.tsFormat →
      (∀ sec frac, I = .ntp sec frac → -2208988800 ≤ sec.toInt ∧ sec.toInt ≤ 2085978495) →
      ∃ (t : Octets) (ps : U16), ps.toNat = 16 + v.length ∧
        exec (.tsenc I) s = .next { s with response := some ⟨.ok, .field t⟩ } ∧
        exec (.encode ty v I) s = .next { s with
          response := some ⟨.ok, .frame ps ([0xA3, 0x9D, 0x7A, ty] ++ bytes16 ps ++
            bytes16 (fold ([0xA3, 0x9D, 0x7A, ty] ++ bytes16 ps ++ [0x00, 0x00] ++ t.bytes ++ v)) ++ t.bytes ++ v)⟩ })

/-- R210, R235: ENCODE checks the type, then the length, then the time, and produces no frame when one fails. -/
def Obligations.EncodeChecksInOrder : Prop :=
  ∀ (ty : Byte) (v : List Byte) (I : Instant) (s : State), I.format = s.cfg.tsFormat →
    (ty = 0 ∨ 10 ≤ ty.toNat →
      exec (.encode ty v I) s = .next { s with response := some ⟨.unknownMessageType, .none⟩ }) ∧
    (1 ≤ ty.toNat → ty.toNat ≤ 9 → 65519 < v.length →
      exec (.encode ty v I) s = .next { s with response := some ⟨.payloadTooLong, .none⟩ }) ∧
    ∀ sec frac, I = .ntp sec frac → 1 ≤ ty.toNat → ty.toNat ≤ 9 → v.length ≤ 65519 →
      sec.toInt < -2208988800 ∨ 2085978495 < sec.toInt →
      exec (.encode ty v I) s = .next { s with response := some ⟨.timestampOutOfRange, .none⟩ }

/-- R211: for accepted operands ENCODE is HPACK with the CSUM of the frame and TSENC's field, and then the payload. -/
def Obligations.EncodeComposesTheUnits : Prop :=
  ∀ (ty : Byte) (v : List Byte) (I : Instant) (s : State) (ps : U16) (f : List Byte),
    exec (.encode ty v I) s = .next { s with response := some ⟨.ok, .frame ps f⟩ } →
    ∃ t h c h', exec (.tsenc I) s = .next { s with response := some ⟨.ok, .field t⟩ } ∧
      exec (.hpack ty (BitVec.ofNat 16 v.length) 0 t) s = .next { s with response := some ⟨.ok, .header h⟩ } ∧
      exec (.csum (h.bytes ++ v)) s = .next { s with response := some ⟨.ok, .checksum c⟩ } ∧
      exec (.hpack ty (BitVec.ofNat 16 v.length) c t) s = .next { s with response := some ⟨.ok, .header h'⟩ } ∧
      f = h'.bytes ++ v

/-- R212 (a): CVERIFY verifies every frame ENCODE returns. -/
def Obligations.EncodedFramesVerify : Prop :=
  ∀ (ty : Byte) (v : List Byte) (I : Instant) (s : State) (ps : U16) (f : List Byte),
    exec (.encode ty v I) s = .next { s with response := some ⟨.ok, .frame ps f⟩ } →
    ∃ c, exec (.cverify f) s = .next { s with response := some ⟨.ok, .verdict true c c⟩ }

/-- R212 (b), (c): feeding an encoded frame to an empty assembler in SEEK emits exactly one packet, on the frame's last
byte, with the operands of ENCODE, in lenient and strict mode alike; TSDEC gives the instant back. -/
def Obligations.EncodedFramesAreReceived : Prop :=
  ∀ (ty : Byte) (v : List Byte) (I : Instant) (s : State) (ps : U16) (f : List Byte),
    s.tag = .seek → s.buf = [] →
    exec (.encode ty v I) s = .next { s with response := some ⟨.ok, .frame ps f⟩ } →
    ∃ (p : Packet), p.ty = ty ∧ p.flags = 0x03 ∧ p.ps = ps ∧ ps.toNat = 16 + v.length ∧ p.payload = v ∧
      feed f s = some ({ s with response := some ⟨.ok, .packet p⟩ },
        List.replicate (15 + v.length) ⟨.ok, .nothingCompleted⟩ ++ [⟨.ok, .packet p⟩]) ∧
      exec (.tsenc I) s = .next { s with response := some ⟨.ok, .field p.t⟩ } ∧
      exec (.tsdec p.t) s = .next { s with response := some ⟨.ok, .instant I⟩ }

/-! ## Streams -/

/-- R61: commands of the stateless units, issued anywhere among a sequence of commands, change neither the final
ASM_TAG, ASM_BUF and CTRL nor the responses of the other commands, PUSH among them: both are as without them. -/
def Obligations.PureCommandsBetweenPushesChangeNothing : Prop :=
  ∀ (is : List Instr) (s : State), s.wf = true → (∀ i ∈ is, i.wf s.cfg.tsFormat = true) →
    ∃ t rs u, perform is s = some (t, rs) ∧ rs.map Prod.fst = is ∧
      perform (is.filter fun i => !isPure i) s = some (u, rs.filter fun x => !isPure x.1) ∧
      t.tag = u.tag ∧ t.buf = u.buf ∧ t.ctrl = u.ctrl

/-- R180, R233, R236: no stream stops the assembler. Every byte is answered by one response, and the state stays one of R24. -/
def Obligations.NoStreamStopsTheAssembler : Prop :=
  ∀ (bytes : List Byte) (s : State), s.wf = true →
    ∃ t rs, feed bytes s = some (t, rs) ∧ rs.length = bytes.length ∧ t.wf = true ∧ t.ctrl = s.ctrl ∧
      (packetsOf rs).length ≤ bytes.length ∧ ∀ r ∈ rs, r.status = .ok ∨ r.status = .checksumMismatch

/-- R182: feeding `FF FF` and then a frame of packetSize at least 16 that meets the strict check emits exactly one packet,
on the frame's last byte; no byte of the frame is skipped. -/
def Obligations.GarbageThenAFrameGivesOnePacket : Prop :=
  ∀ (s : State) (ty p1 p0 c1 c0 : Byte) (t : Octets) (payload f : List Byte),
    s.tag = .seek → s.buf = [] →
    f = [0xA3, 0x9D, 0x7A, ty, p1, p0, c1, c0] ++ t.bytes ++ payload →
    16 + payload.length = p1.toNat * 256 + p0.toNat →
    (s.ctrl.getLsbD 0 = true → be16 c1 c0 = fold f) →
    ∃ p : Packet, p.ty = ty ∧ p.ps = be16 p1 p0 ∧ p.cs = be16 c1 c0 ∧ p.t = t ∧ p.payload = payload ∧
      feed ([0xFF, 0xFF] ++ f) s = some ({ s with response := some ⟨.ok, .packet p⟩ },
        List.replicate (17 + payload.length) ⟨.ok, .nothingCompleted⟩ ++ [⟨.ok, .packet p⟩])

/-! ## Whole-machine rules -/

/-- R24 holds at reset, with CTRL's reserved bits 0 (R27). -/
def Obligations.InvariantHoldsAtReset : Prop := Inv State.reset ∧ State.reset.wf = true

/-- R24, R27: every step keeps the invariant, whatever the host does. -/
def Obligations.StepKeepsTheInvariant : Prop := ∀ s t : State, Inv s → step s = .next t → Inv t

/-- R24, R25, R27: the states the invariant allows, written out. -/
def Obligations.InvariantIsTheTableOfStates : Prop :=
  ∀ s : State, s.wf = true ↔
    (s.ctrl = 0x00 ∨ s.ctrl = 0x01) ∧
    ((s.tag = .seek ∧ s.buf.length ≤ 2) ∨
     (s.tag = .hdr ∧ 3 ≤ s.buf.length ∧ s.buf.length ≤ 15 ∧ ∃ r, s.buf = 0xA3 :: 0x9D :: 0x7A :: r) ∨
     (s.tag = .pay ∧ ∃ ty p1 p0 r, s.buf = 0xA3 :: 0x9D :: 0x7A :: ty :: p1 :: p0 :: r ∧
        16 ≤ s.buf.length ∧ s.buf.length < p1.toNat * 256 + p0.toNat))

/-- R9, R22, R173: the buffer of 65535 bytes never overflows: between commands it holds at most 65534. -/
def Obligations.BufferNeverOverflows : Prop :=
  ∀ s t : State, Inv s → step s = .next t → t.wasReset = true → t.buf.length ≤ 65534

/-- R15, R233, R79, R85: every well-formed command, on every state R24 allows, is performed and gives one response. Both are
R15's function of CFG, the three components of R20 and the command, and nothing else of the machine is read or written. -/
def Obligations.EveryCommandAnswersOneResponse : Prop :=
  ∀ (i : Instr) (s : State), i.wf s.cfg.tsFormat = true → s.wf = true →
    ∃ b r, transaction s.cfg s.toBlockState i = some (b, r) ∧
      exec i s = .next { s with toBlockState := b, response := some r }

/-- R233, R240: a host that keeps its duties is never refused. From every state of the invariant, any number of steps
answers a next state: nothing is fatal. `dutiful` is the model's form of the duties (log entry 2). -/
def Obligations.DutifulHostsAreNeverRefused : Prop :=
  ∀ (n : Nat) (s : State), Inv s → dutiful s = true → ∃ t, Host.Core.run core n s = .next t

/-- R33, R58, R61: a command of a stateless unit writes no state, and its response is a function of its operands and of
CFG alone. -/
def Obligations.StatelessUnitsReadOnlyTheConfiguration : Prop :=
  ∀ (i : Instr) (s t : State), isPure i = true → i.wf s.cfg.tsFormat = true → t.cfg = s.cfg →
    ∃ r, exec i s = .next { s with response := some r } ∧ exec i t = .next { t with response := some r }

/-- R230: a command that responds with a status other than OK writes no state, but for the assembler's return to an empty
SEEK on ChecksumMismatch and TruncatedFrame. -/
def Obligations.FailuresWriteNothing : Prop :=
  ∀ (i : Instr) (s t : State) (r : Response), exec i s = .next t → t.response = some r → r.status ≠ .ok →
    t = { s with response := some r } ∨
    ((r.status = .checksumMismatch ∨ r.status = .truncatedFrame) ∧
      t = { s with tag := .seek, buf := [], response := some r })

/-- R234, R231: the statuses each command can answer; ChecksumMismatch only with STRICT = 1. -/
def Obligations.StatusesOfEachCommand : Prop :=
  ∀ (i : Instr) (s t : State) (r : Response), exec i s = .next t → t.response = some r →
    r.status = .ok ∨
    match i with
    | .push _ => r.status = .checksumMismatch ∧ s.ctrl.getLsbD 0 = true
    | .eos => r.status = .truncatedFrame
    | .flush => False
    | .setmode _ => r.status = .illegalCommand
    | .query => False
    | .hpack _ _ _ _ => r.status = .payloadTooLong
    | .hunpack _ => r.status = .syncMismatch
    | .csum _ => r.status = .badLength
    | .cverify _ => r.status = .badLength
    | .tsenc _ => r.status = .timestampOutOfRange ∧ s.cfg.tsFormat = .ntp
    | .tsdec _ => False
    | .typename _ => False
    | .encode _ _ _ => r.status = .unknownMessageType ∨ r.status = .payloadTooLong ∨
        (r.status = .timestampOutOfRange ∧ s.cfg.tsFormat = .ntp)

/-- R27, R28: CTRL is written by SETMODE and by reset only, and CFG by nothing. -/
def Obligations.OnlySetmodeAndResetWriteCtrl : Prop :=
  (∀ (i : Instr) (s t : State), exec i s = .next t → t.ctrl ≠ s.ctrl → ∃ m, i = .setmode m ∧ m.toNat ≤ 1 ∧ t.ctrl = m) ∧
  ∀ s t : State, step s = .next t →
    t.cfg = s.cfg ∧ (t.ctrl ≠ s.ctrl → ∃ rest, s.host = .reset :: rest ∨ ∃ m, s.host = .command [0x04, m] :: rest)

/-- R170: the assembler moves between SEEK, HDR and PAY only on PUSH, EOS and FLUSH among the commands; and from SEEK no
command reaches PAY. -/
def Obligations.AssemblerMovesOnlyOnPushEosFlush : Prop :=
  ∀ (i : Instr) (s t : State), exec i s = .next t → t.tag ≠ s.tag ∨ t.buf ≠ s.buf →
    (∃ b, i = .push b ∧ (s.tag = .seek → t.tag ≠ .pay) ∧ (s.tag = .pay → t.tag ≠ .hdr)) ∨
    ((i = .eos ∨ i = .flush) ∧ t.tag = .seek ∧ t.buf = [])

/-- R183, R175: a packet comes only from a PUSH in HDR or PAY, at most one, and carries all the bytes of the frame it
completes; its packetSize is the frame's length. -/
def Obligations.PacketsComeOnlyFromPush : Prop :=
  ∀ (i : Instr) (s t : State) (st : Status) (p : Packet), s.wf = true → exec i s = .next t →
    t.response = some ⟨st, .packet p⟩ →
    ∃ b p1 p0 c1 c0, i = .push b ∧ s.tag ≠ .seek ∧ st = .ok ∧ t.tag = .seek ∧ t.buf = [] ∧
      p.ps = be16 p1 p0 ∧ p.cs = be16 c1 c0 ∧ p.ps.toNat = (s.buf ++ [b]).length ∧
      s.buf ++ [b] = [0xA3, 0x9D, 0x7A, p.ty, p1, p0, c1, c0] ++ p.t.bytes ++ p.payload
end

