-- ==== Sys2Proof/Laws/Bytes.lean ====
section
/-! SUPPORT. The laws of big-endian assembly and splitting (spec/00_scope.md R13). -/
namespace Sys2Proof

theorem be16_toNat (a b : Byte) : (be16 a b).toNat = a.toNat * 256 + b.toNat := by
  have := b.isLt
  simp only [be16, BitVec.toNat_append]
  rw [← Nat.shiftLeft_add_eq_or_of_lt this, Nat.shiftLeft_eq]

theorem be32_toNat (a b c d : Byte) :
    (be32 a b c d).toNat = a.toNat * 16777216 + b.toNat * 65536 + c.toNat * 256 + d.toNat := by
  have hb := b.isLt
  have hc := c.isLt
  have hd := d.isLt
  simp only [be32, BitVec.toNat_append]
  rw [← Nat.shiftLeft_add_eq_or_of_lt hd, ← Nat.shiftLeft_add_eq_or_of_lt hc, ← Nat.shiftLeft_add_eq_or_of_lt hb]
  simp only [Nat.shiftLeft_eq]
  omega

theorem be64_toNat (t : Octets) : (be64 t).toNat = t.hi.toNat * 4294967296 + t.lo.toNat := by
  have := (be32 t.b4 t.b5 t.b6 t.b7).isLt
  simp only [be64, BitVec.toNat_append, Octets.hi, Octets.lo]
  rw [← Nat.shiftLeft_add_eq_or_of_lt this, Nat.shiftLeft_eq]

@[simp] theorem be16_split (v : U16) : be16 (v.extractLsb' 8 8) (v.extractLsb' 0 8) = v := by
  apply BitVec.eq_of_toNat_eq
  have := v.isLt
  rw [be16_toNat]
  simp only [BitVec.extractLsb'_toNat, Nat.shiftRight_eq_div_pow]
  omega

@[simp] theorem be32_split (v : U32) :
    be32 (v.extractLsb' 24 8) (v.extractLsb' 16 8) (v.extractLsb' 8 8) (v.extractLsb' 0 8) = v := by
  apply BitVec.eq_of_toNat_eq
  have := v.isLt
  rw [be32_toNat]
  simp only [BitVec.extractLsb'_toNat, Nat.shiftRight_eq_div_pow]
  omega

@[simp] theorem bytes16_be16 (a b : Byte) : bytes16 (be16 a b) = [a, b] := by
  have ha := a.isLt
  have hb := b.isLt
  simp only [bytes16, List.cons.injEq, and_true]
  constructor <;> apply BitVec.eq_of_toNat_eq <;>
    simp only [BitVec.extractLsb'_toNat, Nat.shiftRight_eq_div_pow, be16_toNat] <;> omega

@[simp] theorem bytes32_be32 (a b c d : Byte) : bytes32 (be32 a b c d) = [a, b, c, d] := by
  have ha := a.isLt
  have hb := b.isLt
  have hc := c.isLt
  have hd := d.isLt
  simp only [bytes32, List.cons.injEq, and_true]
  refine ⟨?_, ?_, ?_, ?_⟩ <;> apply BitVec.eq_of_toNat_eq <;>
    simp only [BitVec.extractLsb'_toNat, Nat.shiftRight_eq_div_pow, be32_toNat] <;> omega

@[simp] theorem hi_ofWords (h l : U32) : (Octets.ofWords h l).hi = h := be32_split h

@[simp] theorem lo_ofWords (h l : U32) : (Octets.ofWords h l).lo = l := be32_split l

@[simp] theorem ofWords_hi_lo (t : Octets) : Octets.ofWords t.hi t.lo = t := by
  have h := bytes32_be32 t.b0 t.b1 t.b2 t.b3
  have l := bytes32_be32 t.b4 t.b5 t.b6 t.b7
  simp only [bytes32, List.cons.injEq, and_true] at h l
  simp [Octets.ofWords, Octets.hi, Octets.lo, h, l]

@[simp] theorem be64_ofU64 (v : U64) : be64 (Octets.ofU64 v) = v := by
  apply BitVec.eq_of_toNat_eq
  have := v.isLt
  rw [be64_toNat]
  simp only [Octets.ofU64, hi_ofWords, lo_ofWords, BitVec.extractLsb'_toNat, Nat.shiftRight_eq_div_pow]
  omega

@[simp] theorem ofU64_be64 (t : Octets) : Octets.ofU64 (be64 t) = t := by
  have hl := t.lo.isLt
  have hh := t.hi.isLt
  have h1 : (be64 t).extractLsb' 32 32 = t.hi := by
    apply BitVec.eq_of_toNat_eq
    simp only [BitVec.extractLsb'_toNat, Nat.shiftRight_eq_div_pow, be64_toNat]
    omega
  have h2 : (be64 t).extractLsb' 0 32 = t.lo := by
    apply BitVec.eq_of_toNat_eq
    simp only [BitVec.extractLsb'_toNat, Nat.shiftRight_eq_div_pow, be64_toNat]
    omega
  rw [Octets.ofU64, h1, h2, ofWords_hi_lo]

@[simp] theorem bytes16_length (v : U16) : (bytes16 v).length = 2 := rfl

@[simp] theorem bytes32_length (v : U32) : (bytes32 v).length = 4 := rfl

@[simp] theorem octets_bytes_length (t : Octets) : t.bytes.length = 8 := rfl

@[simp] theorem bytes64_length (v : U64) : (bytes64 v).length = 8 := rfl

@[simp] theorem headerBytes_bytes_length (h : HeaderBytes) : h.bytes.length = 16 := rfl

@[simp] theorem sync_length : sync.length = 3 := rfl

end Sys2Proof
end

