-- ==== Sys2Proof/Laws/Checksum.lean ====
section
/-! SUPPORT. The laws of the checksum fold (spec/43_checksum.md R130). -/
namespace Sys2Proof.Machine

theorem foldl_xor_start (f : List Byte) (a : Byte) : f.foldl (· ^^^ ·) a = a ^^^ xorAll f := by
  induction f generalizing a with
  | nil => simp [xorAll]
  | cons x f ih =>
    have h1 := ih (a ^^^ x)
    have h2 := ih (0 ^^^ x)
    simp only [xorAll, List.foldl_cons] at *
    rw [h1, h2, BitVec.xor_assoc]
    simp

@[simp] theorem xorAll_nil : xorAll [] = 0 := rfl

@[simp] theorem xorAll_cons (a : Byte) (f : List Byte) : xorAll (a :: f) = a ^^^ xorAll f := by
  have := foldl_xor_start f (0 ^^^ a)
  simpa [xorAll] using this

@[simp] theorem xorAll_append (f g : List Byte) : xorAll (f ++ g) = xorAll f ^^^ xorAll g := by
  induction f with
  | nil => simp
  | cons a f ih => simp [ih, BitVec.xor_assoc]

/-- The fold leaves out the two bytes after the first six (R130). -/
theorem fold_split {pre post : List Byte} (h : pre.length = 6) (c1 c0 : Byte) :
    fold (pre ++ c1 :: c0 :: post) = (xorAll pre ^^^ xorAll post).setWidth 16 := by
  have h6 : (pre ++ c1 :: c0 :: post).take 6 = pre := by rw [← h]; simp
  have h8 : (pre ++ c1 :: c0 :: post).drop 8 = post := by
    rw [show 8 = pre.length + 2 by omega]
    simp
  rw [fold, h6, h8, xorAll_append]

/-- Two folds are equal when their XORs are. -/
theorem setWidth_byte_inj {a b : Byte} : (a.setWidth 16 : U16) = b.setWidth 16 ↔ a = b := by
  constructor
  · intro h
    have ha := a.isLt
    have hb := b.isLt
    apply BitVec.eq_of_toNat_eq
    have := congrArg BitVec.toNat h
    simp only [BitVec.toNat_setWidth] at this
    omega
  · rintro rfl
    rfl

/-- A frame of at least eight bytes, cut at its checksum field. -/
theorem cut_at_checksum {f : List Byte} (h : 8 ≤ f.length) :
    ∃ pre c1 c0 post, pre.length = 6 ∧ f = pre ++ c1 :: c0 :: post := by
  match f, h with
  | a :: b :: c :: d :: e :: g :: c1 :: c0 :: post, _ => exact ⟨[a, b, c, d, e, g], c1, c0, post, rfl, rfl⟩

/-- The stored checksum of a frame cut at its checksum field (R133). -/
theorem storedChecksum_split {pre post : List Byte} (h : pre.length = 6) (c1 c0 : Byte) :
    storedChecksum (pre ++ c1 :: c0 :: post) = some (be16 c1 c0) := by
  simp [storedChecksum, ← h, takeU16]

end Sys2Proof.Machine
end

