-- ==== Sys2Proof/Laws/Decode.lean ====
section
/-! SUPPORT. One lemma per reader of operands: it reads what the encoder writes (spec/30_encoding.md R80 to R83), and what it
reads is what stood there. -/
namespace Sys2Proof

theorem opOf_code (op : Op) : opOf op.code = some op := by cases op <;> rfl

theorem opOf_eq_some {o : Byte} {op : Op} (h : opOf o = some op) : o = op.code := by
  revert h
  revert o
  cases op <;> decide

theorem takeByte_cons (b : Byte) (rest : List Byte) : takeByte (b :: rest) = some (b, rest) := rfl

theorem takeU16_bytes16 (v : U16) (rest : List Byte) : takeU16 (bytes16 v ++ rest) = some (v, rest) := by
  simp [bytes16, takeU16]

theorem takeU32_bytes32 (v : U32) (rest : List Byte) : takeU32 (bytes32 v ++ rest) = some (v, rest) := by
  simp [bytes32, takeU32]

theorem takeOctets_bytes (t : Octets) (rest : List Byte) : takeOctets (t.bytes ++ rest) = some (t, rest) := rfl

theorem takeHeader_bytes (h : HeaderBytes) (rest : List Byte) : takeHeader (h.bytes ++ rest) = some (h, rest) := by
  simp [HeaderBytes.bytes, bytes16, takeHeader, takeOctets_bytes]

theorem takeVar_varBytes {v : List Byte} (hv : v.length ≤ 65535) (rest : List Byte) :
    takeVar (varBytes v ++ rest) = some (v, rest) := by
  have hn : (BitVec.ofNat 16 v.length).toNat = v.length := by
    rw [BitVec.toNat_ofNat]
    omega
  simp [takeVar, varBytes, takeU16_bytes16, hn]

theorem takeInstant_bytes (I : Instant) (rest : List Byte) :
    takeInstant I.format (I.bytes ++ rest) = some (I, rest) := by
  cases I <;> simp [takeInstant, Instant.bytes, Instant.format, bytes64, takeOctets_bytes, takeU32_bytes32]

theorem takeU16_eq_some {bs rest : List Byte} {v : U16} (h : takeU16 bs = some (v, rest)) :
    bs = bytes16 v ++ rest := by
  match bs, h with
  | a :: b :: r, h =>
    simp only [takeU16, Option.some.injEq, Prod.mk.injEq] at h
    simp [← h.1, h.2]

theorem takeU32_eq_some {bs rest : List Byte} {v : U32} (h : takeU32 bs = some (v, rest)) :
    bs = bytes32 v ++ rest := by
  match bs, h with
  | a :: b :: c :: d :: r, h =>
    simp only [takeU32, Option.some.injEq, Prod.mk.injEq] at h
    simp [← h.1, h.2]

theorem takeOctets_eq_some {bs rest : List Byte} {t : Octets} (h : takeOctets bs = some (t, rest)) :
    bs = t.bytes ++ rest := by
  match bs, h with
  | b0 :: b1 :: b2 :: b3 :: b4 :: b5 :: b6 :: b7 :: r, h =>
    simp only [takeOctets, Option.some.injEq, Prod.mk.injEq] at h
    simp [← h.1, h.2, Octets.bytes]

theorem takeHeader_eq_some {bs rest : List Byte} {h : HeaderBytes} (e : takeHeader bs = some (h, rest)) :
    bs = h.bytes ++ rest := by
  match bs, e with
  | s0 :: s1 :: s2 :: ty :: p1 :: p0 :: c1 :: c0 :: r, e =>
    simp only [takeHeader, Option.map_eq_some_iff, Prod.mk.injEq] at e
    obtain ⟨⟨t, r'⟩, ht, rfl, rfl⟩ := e
    simp [HeaderBytes.bytes, takeOctets_eq_some ht]

theorem takeVar_eq_some {bs rest v : List Byte} (h : takeVar bs = some (v, rest)) :
    bs = varBytes v ++ rest ∧ v.length ≤ 65535 := by
  simp only [takeVar, Option.bind_eq_some_iff] at h
  obtain ⟨⟨n, r⟩, hn, h⟩ := h
  split at h
  · rename_i hle
    simp only [Option.some.injEq, Prod.mk.injEq] at h
    obtain ⟨rfl, rfl⟩ := h
    have hlt := n.isLt
    simp only at hle
    constructor
    · simp [varBytes, takeU16_eq_some hn, Nat.min_eq_left hle]
    · simp only [List.length_take]
      omega
  · cases h

theorem takeInstant_eq_some {fmt : TsFormat} {bs rest : List Byte} {I : Instant}
    (h : takeInstant fmt bs = some (I, rest)) : bs = I.bytes ++ rest ∧ I.format = fmt := by
  cases fmt with
  | ntp =>
    simp only [takeInstant, Option.bind_eq_some_iff, Option.map_eq_some_iff, Prod.mk.injEq] at h
    obtain ⟨⟨t, r⟩, ht, ⟨f, r'⟩, hf, rfl, rfl⟩ := h
    simp only at hf
    simp [Instant.bytes, Instant.format, bytes64, takeOctets_eq_some ht, takeU32_eq_some hf]
  | f64 =>
    simp only [takeInstant, Option.map_eq_some_iff, Prod.mk.injEq] at h
    obtain ⟨⟨t, r⟩, ht, rfl, rfl⟩ := h
    simp [Instant.bytes, Instant.format, bytes64, takeOctets_eq_some ht]

/-- What a decoder's answer says of its input: an opcode of the map, and operands its readers take. -/
theorem decode_eq_ok {fmt : TsFormat} {bs rest : List Byte} {i : Instr} (h : decode fmt bs = .ok i rest) :
    ∃ op r, bs = op.code :: r ∧ takeOperands fmt op r = some (i, rest) := by
  cases bs with
  | nil => cases h
  | cons o r =>
    simp only [decode] at h
    split at h
    · cases h
    · rename_i op ho
      split at h
      · rename_i i' rest' ht
        injection h with h1 h2
        subst h1 h2
        exact ⟨op, r, by rw [opOf_eq_some ho], ht⟩
      · cases h

theorem decode_cons_code (fmt : TsFormat) (op : Op) (r : List Byte) :
    decode fmt (op.code :: r) =
      match takeOperands fmt op r with
      | some (i, rest) => .ok i rest
      | none => .incomplete := by
  simp only [decode, opOf_code]
  all_goals rfl

end Sys2Proof
end

