-- ==== Sys2Proof/Laws/State.lean ====
section
/-! SUPPORT. One lemma per field per update of the state, so that no later proof unfolds a record update. -/
namespace Sys2Proof.Machine

@[simp] theorem setAssembler_tag (tag : AsmTag) (buf : List Byte) (s : State) : (setAssembler tag buf s).tag = tag := rfl
@[simp] theorem setAssembler_buf (tag : AsmTag) (buf : List Byte) (s : State) : (setAssembler tag buf s).buf = buf := rfl
@[simp] theorem setAssembler_ctrl (tag : AsmTag) (buf : List Byte) (s : State) : (setAssembler tag buf s).ctrl = s.ctrl := rfl
@[simp] theorem setAssembler_cfg (tag : AsmTag) (buf : List Byte) (s : State) : (setAssembler tag buf s).cfg = s.cfg := rfl
@[simp] theorem setAssembler_wasReset (tag : AsmTag) (buf : List Byte) (s : State) : (setAssembler tag buf s).wasReset = s.wasReset := rfl
@[simp] theorem setAssembler_host (tag : AsmTag) (buf : List Byte) (s : State) : (setAssembler tag buf s).host = s.host := rfl
@[simp] theorem setAssembler_response (tag : AsmTag) (buf : List Byte) (s : State) : (setAssembler tag buf s).response = s.response := rfl

@[simp] theorem emptyAssembler_tag (s : State) : (emptyAssembler s).tag = AsmTag.seek := rfl
@[simp] theorem emptyAssembler_buf (s : State) : (emptyAssembler s).buf = [] := rfl
@[simp] theorem emptyAssembler_ctrl (s : State) : (emptyAssembler s).ctrl = s.ctrl := rfl
@[simp] theorem emptyAssembler_cfg (s : State) : (emptyAssembler s).cfg = s.cfg := rfl
@[simp] theorem emptyAssembler_wasReset (s : State) : (emptyAssembler s).wasReset = s.wasReset := rfl
@[simp] theorem emptyAssembler_host (s : State) : (emptyAssembler s).host = s.host := rfl
@[simp] theorem emptyAssembler_response (s : State) : (emptyAssembler s).response = s.response := rfl

@[simp] theorem writeStrict_tag (b : Bool) (s : State) : (writeStrict b s).tag = s.tag := rfl
@[simp] theorem writeStrict_buf (b : Bool) (s : State) : (writeStrict b s).buf = s.buf := rfl
@[simp] theorem writeStrict_ctrl (b : Bool) (s : State) : (writeStrict b s).ctrl = if b then 0x01 else 0x00 := rfl
@[simp] theorem writeStrict_cfg (b : Bool) (s : State) : (writeStrict b s).cfg = s.cfg := rfl
@[simp] theorem writeStrict_wasReset (b : Bool) (s : State) : (writeStrict b s).wasReset = s.wasReset := rfl
@[simp] theorem writeStrict_host (b : Bool) (s : State) : (writeStrict b s).host = s.host := rfl
@[simp] theorem writeStrict_response (b : Bool) (s : State) : (writeStrict b s).response = s.response := rfl

@[simp] theorem assertReset_tag (s : State) : (assertReset s).tag = AsmTag.seek := rfl
@[simp] theorem assertReset_buf (s : State) : (assertReset s).buf = [] := rfl
@[simp] theorem assertReset_ctrl (s : State) : (assertReset s).ctrl = 0x00 := rfl
@[simp] theorem assertReset_cfg (s : State) : (assertReset s).cfg = s.cfg := rfl
@[simp] theorem assertReset_wasReset (s : State) : (assertReset s).wasReset = true := rfl
@[simp] theorem assertReset_host (s : State) : (assertReset s).host = s.host := rfl
@[simp] theorem assertReset_response (s : State) : (assertReset s).response = s.response := rfl

@[simp] theorem takeResponse_tag (s : State) : (takeResponse s).tag = s.tag := rfl
@[simp] theorem takeResponse_buf (s : State) : (takeResponse s).buf = s.buf := rfl
@[simp] theorem takeResponse_ctrl (s : State) : (takeResponse s).ctrl = s.ctrl := rfl
@[simp] theorem takeResponse_cfg (s : State) : (takeResponse s).cfg = s.cfg := rfl
@[simp] theorem takeResponse_wasReset (s : State) : (takeResponse s).wasReset = s.wasReset := rfl
@[simp] theorem takeResponse_host (s : State) : (takeResponse s).host = s.host := rfl
@[simp] theorem takeResponse_response (s : State) : (takeResponse s).response = none := rfl

@[simp] theorem issueNext_tag (bytes : List Byte) (s : State) : (issueNext bytes s).tag = s.tag := rfl
@[simp] theorem issueNext_buf (bytes : List Byte) (s : State) : (issueNext bytes s).buf = s.buf := rfl
@[simp] theorem issueNext_ctrl (bytes : List Byte) (s : State) : (issueNext bytes s).ctrl = s.ctrl := rfl
@[simp] theorem issueNext_cfg (bytes : List Byte) (s : State) : (issueNext bytes s).cfg = s.cfg := rfl
@[simp] theorem issueNext_wasReset (bytes : List Byte) (s : State) : (issueNext bytes s).wasReset = s.wasReset := rfl
@[simp] theorem issueNext_host (bytes : List Byte) (s : State) : (issueNext bytes s).host = .command bytes :: s.host := rfl
@[simp] theorem issueNext_response (bytes : List Byte) (s : State) : (issueNext bytes s).response = none := rfl

/-! The three components of R20 under each update of the machine. -/

@[simp] theorem setAssembler_toBlockState (tag : AsmTag) (buf : List Byte) (s : State) :
    (setAssembler tag buf s).toBlockState = ⟨tag, buf, s.ctrl⟩ := rfl
@[simp] theorem emptyAssembler_toBlockState (s : State) : (emptyAssembler s).toBlockState = ⟨.seek, [], s.ctrl⟩ := rfl
@[simp] theorem writeStrict_toBlockState (b : Bool) (s : State) :
    (writeStrict b s).toBlockState = ⟨s.tag, s.buf, if b then 0x01 else 0x00⟩ := rfl
@[simp] theorem assertReset_toBlockState (s : State) : (assertReset s).toBlockState = BlockState.reset := rfl
@[simp] theorem takeResponse_toBlockState (s : State) : (takeResponse s).toBlockState = s.toBlockState := rfl
@[simp] theorem issueNext_toBlockState (bytes : List Byte) (s : State) :
    (issueNext bytes s).toBlockState = s.toBlockState := rfl

/-- A command that ends with a status answers a next state that differs from the one handed over in the response only. -/
theorem respond_eq (st : Status) (r : Results) (s : State) : respond st r s = .next { s with response := some ⟨st, r⟩ } := rfl

theorem ok_eq (r : Results) (s : State) : ok r s = .next { s with response := some ⟨.ok, r⟩ } := rfl

theorem raise_eq (st : Status) (r : Results) (s : State) : raise st r s = .next { s with response := some ⟨st, r⟩ } := rfl

theorem illegalCommand_eq (s : State) :
    illegalCommand s = .next { s with response := some ⟨.illegalCommand, .none⟩ } := rfl

end Sys2Proof.Machine
end

