-- ==== Sys2Proof/Laws/Assembler.lean ====
section
/-! SUPPORT. What each shared operation of the assembler can do, said once (spec/45_assembler.md R171 to R174). -/
namespace Sys2Proof.Machine

/-- The fields of a frame are there once it has 16 bytes (R25, R70). -/
theorem frameFields_of_length {f : List Byte} (h : 16 ≤ f.length) :
    ∃ hd payload, frameFields f = some (hd, payload) ∧ f = hd.bytes ++ payload := by
  match f, h with
  | s0 :: s1 :: s2 :: ty :: p1 :: p0 :: c1 :: c0 :: b0 :: b1 :: b2 :: b3 :: b4 :: b5 :: b6 :: b7 :: rest, _ =>
    refine ⟨⟨s0, s1, s2, ty, be16 p1 p0, be16 c1 c0, ⟨b0, b1, b2, b3, b4, b5, b6, b7⟩⟩, rest, rfl, ?_⟩
    simp [HeaderBytes.bytes, Octets.bytes]

@[simp] theorem frameFields_bytes (hd : HeaderBytes) (payload : List Byte) :
    frameFields (hd.bytes ++ payload) = some (hd, payload) := takeHeader_bytes hd payload

@[simp] theorem frameFields_header (hd : HeaderBytes) : frameFields hd.bytes = some (hd, []) := by
  have := frameFields_bytes hd []
  rwa [List.append_nil] at this

theorem frameFields_eq_some {f payload : List Byte} {hd : HeaderBytes} (h : frameFields f = some (hd, payload)) :
    f = hd.bytes ++ payload := takeHeader_eq_some h

/-- The fields of a frame do not change when bytes are appended. -/
theorem frameFields_append {f payload : List Byte} {hd : HeaderBytes} (h : frameFields f = some (hd, payload))
    (g : List Byte) : frameFields (f ++ g) = some (hd, payload ++ g) := by
  rw [frameFields_eq_some h, List.append_assoc, frameFields_bytes]

/-- COMPLETE leaves the assembler empty and answers one of two responses (R174). -/
theorem complete_eq (f : List Byte) (hd : HeaderBytes) (payload : List Byte) (s : State) :
    complete f hd payload s =
      .next { s with
        tag := .seek, buf := [],
        response := some (if strict s = true ∧ hd.cs ≠ fold f then ⟨.checksumMismatch, .mismatch hd.cs (fold f)⟩
          else ⟨.ok, .packet (packetOf hd payload f.length (decide (hd.cs = fold f)))⟩) } := by
  unfold complete
  by_cases hs : strict s = true <;> by_cases hc : hd.cs = fold f <;>
    simp [hs, hc, csumOk, raise_eq, ok_eq, emptyAssembler, setAssembler]

/-- PUSH in SEEK answers a next state: the window grows, becomes a frame, or loses its oldest byte (R171). -/
theorem pushSeek_eq (w : List Byte) (s : State) :
    pushSeek w s =
      .next { s with
        tag := if 3 ≤ w.length ∧ w = sync then .hdr else .seek,
        buf := if w.length < 3 ∨ w = sync then w else (w.drop 1).take 2,
        response := some ⟨.ok, .nothingCompleted⟩ } := by
  unfold pushSeek
  by_cases h : w.length < 3
  · have : ¬ 3 ≤ w.length := by omega
    simp [h, this, ok_eq, setAssembler]
  · have : 3 ≤ w.length := by omega
    by_cases hw : w = sync <;> simp [h, this, hw, ok_eq, setAssembler]

end Sys2Proof.Machine
end

