-- ==== Sys2Proof/Laws/Flags.lean ====
section
/-! SUPPORT. The laws of the flags and of the registry (spec/41_registry.md R100 to R102). -/
namespace Sys2Proof.Machine

@[simp] theorem known_iff (code : Byte) : known code = true ↔ 1 ≤ code.toNat ∧ code.toNat ≤ 9 :=
  decide_eq_true_iff

/-- The name index of a known code is the code (R100). -/
theorem index_nameOf (code : Byte) (h : known code = true) : (nameOf code).index = code := by
  revert h
  revert code
  decide

theorem flagsByte_eq (a b : Bool) :
    flagsByte a b = (if a then 0x01 else 0x00) ||| (if b then 0x02 else 0x00) := rfl

end Sys2Proof.Machine
end

