-- ==== Sys2Proof/Laws/PerInstr.lean ====
section
/-! SUPPORT. A law of every command as syntax: its serialization begins with its row's opcode, and is as long as its
format says (spec/30_encoding.md R81, R83). -/
namespace Sys2Proof.Laws.EncodeShape

/-- The serialization of `i` is its opcode byte and has the length of its format. -/
def Statement (i : Instr) : Prop := (encode i).head? = some i.op.code ∧ (encode i).length = commandLength i

theorem push (b : Byte) : Statement (.push b) := ⟨rfl, rfl⟩

theorem eos : Statement .eos := ⟨rfl, rfl⟩

theorem flush : Statement .flush := ⟨rfl, rfl⟩

theorem setmode (m : Byte) : Statement (.setmode m) := ⟨rfl, rfl⟩

theorem query : Statement .query := ⟨rfl, rfl⟩

theorem hpack (ty : Byte) (pl cs : U16) (t : Octets) : Statement (.hpack ty pl cs t) := ⟨rfl, rfl⟩

theorem hunpack (h : HeaderBytes) : Statement (.hunpack h) := ⟨rfl, rfl⟩

theorem csum (v : List Byte) : Statement (.csum v) := by
  refine ⟨rfl, ?_⟩
  simp only [encode, operandBytes, varBytes, commandLength, List.length_cons, List.length_append, bytes16_length]
  omega

theorem cverify (v : List Byte) : Statement (.cverify v) := by
  refine ⟨rfl, ?_⟩
  simp only [encode, operandBytes, varBytes, commandLength, List.length_cons, List.length_append, bytes16_length]
  omega

theorem instant_length (I : Instant) : I.bytes.length = instantLength I.format := by cases I <;> rfl

theorem tsenc (I : Instant) : Statement (.tsenc I) := by
  refine ⟨rfl, ?_⟩
  simp only [encode, operandBytes, commandLength, List.length_cons, instant_length]
  omega

theorem tsdec (t : Octets) : Statement (.tsdec t) := ⟨rfl, rfl⟩

theorem typename (code : Byte) : Statement (.typename code) := ⟨rfl, rfl⟩

theorem encode (ty : Byte) (v : List Byte) (I : Instant) : Statement (.encode ty v I) := by
  refine ⟨rfl, ?_⟩
  simp only [Sys2Proof.encode, operandBytes, varBytes, commandLength, List.length_cons, List.length_append,
    bytes16_length, instant_length, List.length_nil]
  omega

end Sys2Proof.Laws.EncodeShape
end

