-- ==== Sys2Proof/Laws/Step.lean ====
section
/-! SUPPORT. What one step can do, said once (spec/60_exceptions.md R240, R244; spec/30_encoding.md R84). -/
namespace Sys2Proof.Machine

/-- Being well formed is a matter of ASM_TAG, ASM_BUF and CTRL alone (R24, R27). -/
theorem wf_congr {s t : State} (h1 : t.tag = s.tag) (h2 : t.buf = s.buf) (h3 : t.ctrl = s.ctrl) : t.wf = s.wf := by
  simp only [State.wf, assemblerWf, packetSize, h1, h2, h3]

/-- A command issued as the host's duties and R24 ask is decoded and performed. -/
theorem performCommand_ready (bytes : List Byte) {s : State} (hw : s.wasReset = true) (hr : s.response = none)
    (hf : s.wf = true) :
    performCommand bytes s =
      match decode s.cfg.tsFormat bytes with
      | .ok i [] => exec i s
      | .ok _ (_ :: _) => .refused .notOneCommand
      | .undefinedOpcode _ _ => illegalCommand s
      | .incomplete => .refused .notOneCommand := by
  simp only [performCommand, hw, hr, hf, Bool.not_true, Bool.false_eq_true, if_false, Option.isSome_none]
  all_goals rfl

/-- A command that answers a next state was issued after reset, on a state of R24, with no response outstanding, and was
either one command of the map or an undefined opcode. -/
theorem performCommand_cases {bytes : List Byte} {s t : State} (h : performCommand bytes s = .next t) :
    s.wasReset = true ∧ s.response = none ∧ s.wf = true ∧
      ((∃ i, decode s.cfg.tsFormat bytes = .ok i [] ∧ exec i s = .next t) ∨
       (∃ o rest, decode s.cfg.tsFormat bytes = .undefinedOpcode o rest ∧
          t = { s with response := some ⟨.illegalCommand, .none⟩ })) := by
  cases hw : s.wasReset with
  | false => simp [performCommand, hw] at h
  | true =>
    cases hr : s.response with
    | some r => simp [performCommand, hw, hr] at h
    | none =>
      cases hf : s.wf with
      | false => simp [performCommand, hw, hr, hf] at h
      | true =>
        refine ⟨rfl, rfl, rfl, ?_⟩
        rw [performCommand_ready bytes hw hr hf] at h
        split at h
        · rename_i i hd
          exact .inl ⟨i, hd, h⟩
        · cases h
        · rename_i o rest hd
          rw [illegalCommand_eq] at h
          injection h with h
          exact .inr ⟨o, rest, hd, by rw [← h, ← hw]⟩
        · cases h

/-- The four things a step can do (R240, R244): hold, reset, take, or perform a command. -/
theorem step_cases {s t : State} (h : step s = .next t) :
    (s.host = [] ∧ t = s) ∨
    (∃ rest, s.host = .reset :: rest ∧ t = assertReset { s with host := rest }) ∨
    (∃ rest, s.host = .take :: rest ∧ t = takeResponse { s with host := rest }) ∨
    (∃ bytes rest, s.host = .command bytes :: rest ∧ performCommand bytes { s with host := rest } = .next t) := by
  simp only [step, answerHost] at h
  split at h
  · rename_i hh
    injection h with h
    exact .inl ⟨hh, h.symm⟩
  · rename_i rest hh
    injection h with h
    exact .inr (.inl ⟨rest, hh, h.symm⟩)
  · rename_i rest hh
    injection h with h
    exact .inr (.inr (.inl ⟨rest, hh, h.symm⟩))
  · rename_i bytes rest hh
    exact .inr (.inr (.inr ⟨bytes, rest, hh, h⟩))

/-- A command that answers a response is R15's function at the machine it was performed on, and conversely: the machine
R15's function runs on answers what the function says. -/
theorem transaction_eq_some {c : Config} {b b' : BlockState} {i : Instr} {r : Response} :
    transaction c b i = some (b', r) ↔
      ∃ t, exec i { toBlockState := b, cfg := c, wasReset := true, host := [], response := none } = .next t ∧
        t.toBlockState = b' ∧ t.response = some r := by
  simp only [transaction]
  cases exec i { toBlockState := b, cfg := c, wasReset := true, host := [], response := none } with
  | next t =>
    simp only [Option.map_eq_some_iff, Prod.mk.injEq, Host.Outcome.next.injEq, exists_eq_left']
    exact ⟨fun ⟨a, hr, hb, ha⟩ => ⟨hb, ha ▸ hr⟩, fun ⟨hb, hr⟩ => ⟨r, hr, hb, rfl⟩⟩
  | fault f => cases f
  | refused f => simp

/-- The first command of a sequence, when it answers a response. -/
theorem perform_cons {i : Instr} {is : List Instr} {s s' : State} {r : Response} (h : exec i s = .next s')
    (hr : s'.response = some r) :
    perform (i :: is) s = (perform is s').map fun x => (x.1, (i, r) :: x.2) := by
  simp only [perform, h, hr, Option.toList_some, List.map_cons, List.map_nil, List.cons_append, List.nil_append]

/-- The first byte of a stream, when its PUSH answers a response. -/
theorem feed_cons_next {b : Byte} {bs : List Byte} {s s' : State} {r : Response} (h : exec (.push b) s = .next s')
    (hr : s'.response = some r) :
    feed (b :: bs) s = (feed bs s').map fun x => (x.1, r :: x.2) := by
  simp only [feed, h, hr, Option.toList_some, List.cons_append, List.nil_append]

/-- R181: feeding is a left fold, so a stream may be cut anywhere. -/
theorem feed_append (xs ys : List Byte) (s : State) :
    feed (xs ++ ys) s = (feed xs s).bind fun a => (feed ys a.1).map fun c => (c.1, a.2 ++ c.2) := by
  induction xs generalizing s with
  | nil => simp [feed]
  | cons x xs ih =>
    simp only [List.cons_append, feed]
    split
    · rename_i s' _
      rw [ih s']
      cases feed xs s' with
      | none => rfl
      | some a => cases h : feed ys a.1 <;> simp [h]
    · rfl
    · rfl

end Sys2Proof.Machine
end

