-- ==== Sys2Proof/Tests/Slice0.lean ====
section
/-! SUPPORT. Tests of the model against the spec's own vectors (spec/95_test_vectors.md), the smoke tests of WellFormed, the
decoding of one word per command, and a witness for the hypotheses of every statement. -/
open Sys2Proof Sys2Proof.Machine
namespace Sys2Proof.Tests

/-! ## Helpers -/

/-- A block with the given tag, buffer and CTRL, right after a reset otherwise. -/
def demo (fmt : TsFormat) (tag : AsmTag) (buf : List Byte) (ctrl : Byte) : State :=
  { State.reset with cfg := ⟨fmt⟩, tag := tag, buf := buf, ctrl := ctrl }

/-- The same block with the host's moves to come. -/
def demoWith (host : List HostMove) (s : State) : State := { s with host := host }

/-- The response's bytes (R80), and the tag, buffer and CTRL after a command. -/
def after : Answer → Option (List Byte × AsmTag × List Byte × Byte)
  | .next t => some ((t.response.map Response.bytes).getD [], t.tag, t.buf, t.ctrl)
  | .fault _ => none
  | .refused _ => none

/-- The name a step is refused under. -/
def refusal : Answer → Option Refusal
  | .next _ => none
  | .fault _ => none
  | .refused r => some r

/-- The timestamp field of the Unix epoch under NTP (R112's example). -/
def epochField : Octets := ⟨0x83, 0xAA, 0x7E, 0x80, 0, 0, 0, 0⟩

/-- The all-zero field. -/
def zeroField : Octets := ⟨0, 0, 0, 0, 0, 0, 0, 0⟩

/-- Frame FR2. -/
def fr2 : List Byte :=
  [0xA3, 0x9D, 0x7A, 0x07, 0x00, 0x12, 0x00, 0xE0, 0x83, 0xAA, 0x7E, 0x80, 0x00, 0x00, 0x00, 0x00, 0xAB, 0xCD]

/-- Frame FR1. -/
def fr1 : List Byte := [0xA3, 0x9D, 0x7A, 0x01, 0x00, 0x10, 0x00, 0x55, 0, 0, 0, 0, 0, 0, 0, 0]

/-- Frame FR10: FR1 with a wrong checksum. -/
def fr10 : List Byte := [0xA3, 0x9D, 0x7A, 0x01, 0x00, 0x10, 0x00, 0x56, 0, 0, 0, 0, 0, 0, 0, 0]

/-- A header with the given packetSize bytes, but for its last byte. -/
def openHeader (p1 p0 : Byte) : List Byte := [0xA3, 0x9D, 0x7A, 0x01, p1, p0, 0x00, 0x00, 0, 0, 0, 0, 0, 0, 0]

def idle : State := demo .ntp .seek [] 0
def idleF64 : State := demo .f64 .seek [] 0
def inHdr : State := demo .ntp .hdr fr1.dropLast 0
def inPay : State := demo .ntp .pay (fr2.take 17) 0

/-! ## WellFormed -/

/-- `n` zero bytes. -/
def zeros (n : Nat) : List Byte := List.replicate n 0

theorem zeros_length (n : Nat) : (zeros n).length = n := List.length_replicate

theorem lengthFits_zeros (n : Nat) : lengthFits (zeros n) = decide (n ≤ 65535) := by simp only [lengthFits, zeros_length]

theorem test_wf_refuses_long_csum : (Instr.csum (zeros 65536)).wf .ntp = false := by
  simp only [Instr.wf, lengthFits_zeros]
  decide

theorem test_wf_refuses_long_cverify : (Instr.cverify (zeros 65536)).wf .f64 = false := by
  simp only [Instr.wf, lengthFits_zeros]
  decide

theorem test_wf_refuses_long_encode : (Instr.encode 1 (zeros 65536) (.ntp 0 0)).wf .ntp = false := by
  simp only [Instr.wf, lengthFits_zeros]
  decide

theorem test_wf_accepts_longest_csum : (Instr.csum (zeros 65535)).wf .ntp = true := by
  simp only [Instr.wf, lengthFits_zeros]
  decide

theorem test_wf_refuses_tsenc_of_the_other_format :
    (Instr.tsenc (.f64 0)).wf .ntp = false ∧ (Instr.tsenc (.ntp 0 0)).wf .f64 = false := by decide

theorem test_wf_refuses_encode_of_the_other_format :
    (Instr.encode 1 [] (.f64 0)).wf .ntp = false ∧ (Instr.encode 1 [] (.ntp 0 0)).wf .f64 = false := by decide

/-! ## Decoding: one word per command, written out from the formats of R81 and the map of R83 -/

-- FB: o = 0000_0001, d = 1010_0011
theorem test_decode_push : decode .ntp [0b00000001, 0b10100011] = .ok (.push 0xA3) [] := by decide

-- F0: o = 0000_0010
theorem test_decode_eos : decode .ntp [0b00000010] = .ok .eos [] := by decide

-- F0: o = 0000_0011
theorem test_decode_flush : decode .ntp [0b00000011] = .ok .flush [] := by decide

-- FB: o = 0000_0100, d = 0000_0001
theorem test_decode_setmode : decode .ntp [0b00000100, 0b00000001] = .ok (.setmode 1) [] := by decide

-- F0: o = 0000_0101
theorem test_decode_query : decode .ntp [0b00000101] = .ok .query [] := by decide

-- FP: o = 0001_0000, ty, pl = 0xFFEF, cs = 0xABCD, t (V-HD2)
theorem test_decode_hpack :
    decode .ntp [0b00010000, 0x00, 0xFF, 0xEF, 0xAB, 0xCD, 1, 2, 3, 4, 5, 6, 7, 8] =
      .ok (.hpack 0 65519 0xABCD ⟨1, 2, 3, 4, 5, 6, 7, 8⟩) [] := by decide

-- FH: o = 0001_0001, h = the first 16 bytes of FR2 (V-HD5)
theorem test_decode_hunpack :
    decode .ntp [0b00010001, 0xA3, 0x9D, 0x7A, 0x07, 0x00, 0x12, 0x00, 0xE0, 0x83, 0xAA, 0x7E, 0x80, 0, 0, 0, 0] =
      .ok (.hunpack ⟨0xA3, 0x9D, 0x7A, 7, 18, 0x00E0, epochField⟩) [] := by decide

-- FV: o = 0010_0000, L = 0x0003, v
theorem test_decode_csum : decode .ntp [0b00100000, 0x00, 0x03, 9, 8, 7, 6] = .ok (.csum [9, 8, 7]) [6] := by decide

-- FV: o = 0010_0001, L = 0x0001, v
theorem test_decode_cverify : decode .ntp [0b00100001, 0x00, 0x01, 0x5A] = .ok (.cverify [0x5A]) [] := by decide

-- FI with NTP: o = 0011_0000, sec = -2208988801 in two's complement, frac = 0x01020304 (V-TS6)
theorem test_decode_tsenc_ntp :
    decode .ntp [0b00110000, 0xFF, 0xFF, 0xFF, 0xFF, 0x7C, 0x55, 0x81, 0x7F, 1, 2, 3, 4] =
      .ok (.tsenc (.ntp (BitVec.ofInt 64 (-2208988801)) 0x01020304)) [] := by decide

-- FI with F64: o = 0011_0000, d (V-TS7)
theorem test_decode_tsenc_f64 :
    decode .f64 [0b00110000, 0x41, 0xD2, 0xCF, 0x4E, 0xC0, 0x00, 0x00, 0x00] =
      .ok (.tsenc (.f64 0x41D2CF4EC0000000)) [] := by decide

-- FT: o = 0011_0001, t
theorem test_decode_tsdec :
    decode .ntp [0b00110001, 1, 2, 3, 4, 5, 6, 7, 8] = .ok (.tsdec ⟨1, 2, 3, 4, 5, 6, 7, 8⟩) [] := by decide

-- FB: o = 0100_0000, d = 0000_0111
theorem test_decode_typename : decode .ntp [0b01000000, 0b00000111] = .ok (.typename 7) [] := by decide

-- FE with NTP: o = 0101_0000, ty = 7, L = 2, v = AB CD, sec = 0x0102030405060708, frac = 0x090A0B0C
theorem test_decode_encode_ntp :
    decode .ntp [0b01010000, 7, 0, 2, 0xAB, 0xCD, 1, 2, 3, 4, 5, 6, 7, 8, 9, 10, 11, 12] =
      .ok (.encode 7 [0xAB, 0xCD] (.ntp 0x0102030405060708 0x090A0B0C)) [] := by decide

-- FE with F64: o = 0101_0000, ty = 7, L = 0, d (V-EN10)
theorem test_decode_encode_f64 :
    decode .f64 [0b01010000, 7, 0, 0, 0x41, 0xD2, 0xCF, 0x4E, 0xC0, 0, 0, 0] =
      .ok (.encode 7 [] (.f64 0x41D2CF4EC0000000)) [] := by decide

-- R84: an undefined opcode has no operands
theorem test_decode_undefined : decode .ntp [0x00, 1] = .undefinedOpcode 0x00 [1] := by decide

-- R81: one byte short of format FT
theorem test_decode_short : decode .ntp [0x31, 1, 2, 3, 4, 5, 6, 7] = .incomplete := by decide

-- opcode_table.json: bit 0 is the least significant bit of the first byte
theorem test_decode_table_word : decodeTableWord 16 0xA301 = some (.push 0xA3) := by decide

-- a row given as its opcode byte alone, the operand bytes zero
theorem test_decode_table_opcode : decodeTableWord 8 0x31 = some (.tsdec zeroField) := by decide

theorem test_table_word_runs :
    after (step (State.reset.withFetchWord 16 0x0104)) = some ([0x00], .seek, [], 0x01) := by decide

/-! ## One step per command, against the spec's vectors -/

-- V-AS1: the marker overlaps the rejected window
theorem test_push_keeps_two_bytes :
    after (exec (.push 0x9D) (demo .ntp .seek [0xA3, 0xA3] 0)) = some ([0, 0], .seek, [0xA3, 0x9D], 0) := by decide

-- P1: the last byte of FR2
theorem test_push_emits :
    after (exec (.push 0xCD) inPay) =
      some ([0x00, 1, 7, 3, 0x00, 0x12, 0x00, 0xE0, 0x83, 0xAA, 0x7E, 0x80, 0, 0, 0, 0, 0xAB, 0xCD], .seek, [], 0) := by
  decide

-- V-AS7: the strict reject
theorem test_push_rejects :
    after (exec (.push 0) (demo .ntp .hdr fr10.dropLast 1)) = some ([0x02, 0x00, 0x56, 0x00, 0x55], .seek, [], 1) := by
  decide

-- V-AS4: the discard
theorem test_push_discards :
    after (exec (.push 0) (demo .ntp .hdr (openHeader 0x00 0x0F) 0)) = some ([0x00, 2, 0x00, 0x0F], .seek, [], 0) := by
  decide

-- V-AS15
theorem test_eos_truncated : after (exec .eos inPay) = some ([0x01, 2, 0x00, 0x11], .seek, [], 0) := by decide

-- V-AS13
theorem test_eos_window : after (exec .eos (demo .ntp .seek [0xFF, 0xA3] 0)) = some ([0x00], .seek, [], 0) := by decide

-- V-AS16
theorem test_flush : after (exec .flush (demo .ntp .hdr (fr2.take 12) 1)) = some ([0x00], .seek, [], 1) := by decide

-- V-AS17
theorem test_setmode_reserved : after (exec (.setmode 0x81) idle) = some ([0x08], .seek, [], 0) := by decide

-- V-AS19: SETMODE 0 in the middle of a frame
theorem test_setmode_lenient :
    after (exec (.setmode 0) (demo .ntp .hdr (fr10.take 10) 1)) = some ([0x00], .hdr, fr10.take 10, 0) := by decide

-- V-AS15
theorem test_query_pay : after (exec .query inPay) = some ([0x00, 2, 0x00, 0x11, 0, 0], .pay, fr2.take 17, 0) := by
  decide

-- P6
theorem test_query_f64 : after (exec .query (demo .f64 .seek [] 0)) = some ([0x00, 0, 0, 0, 0, 1], .seek, [], 0) := by
  decide

-- V-HD2
theorem test_hpack_longest :
    after (exec (.hpack 0 65519 0xABCD ⟨1, 2, 3, 4, 5, 6, 7, 8⟩) idle) =
      some ([0x00, 0xA3, 0x9D, 0x7A, 0, 0xFF, 0xFF, 0xAB, 0xCD, 1, 2, 3, 4, 5, 6, 7, 8], .seek, [], 0) := by decide

-- V-HD3
theorem test_hpack_too_long : after (exec (.hpack 7 65520 0 zeroField) idle) = some ([0x05], .seek, [], 0) := by decide

-- V-HD7
theorem test_hunpack_unknown :
    after (exec (.hunpack ⟨0xA3, 0x9D, 0x7A, 0x0A, 15, 0x1234, zeroField⟩) idle) =
      some ([0x00, 0x0A, 0x00, 0x00, 0x0F, 0x12, 0x34, 0, 0, 0, 0, 0, 0, 0, 0], .seek, [], 0) := by decide

-- V-HD6
theorem test_hunpack_sync :
    after (exec (.hunpack ⟨0xA3, 0x9D, 0x7B, 7, 18, 0x00E0, epochField⟩) idle) = some ([0x04], .seek, [], 0) := by decide

-- V-CS4
theorem test_csum : after (exec (.csum fr2) idle) = some ([0x00, 0x00, 0xE0], .seek, [], 0) := by decide

-- V-CS1
theorem test_csum_short : after (exec (.csum (List.replicate 15 0)) idle) = some ([0x07], .seek, [], 0) := by decide

-- V-CS9
theorem test_cverify_cut :
    after (exec (.cverify fr2.dropLast) idle) = some ([0x00, 0, 0x00, 0xE0, 0x00, 0x2D], .seek, [], 0) := by decide

-- V-CS5
theorem test_cverify : after (exec (.cverify fr2) idle) = some ([0x00, 1, 0x00, 0xE0, 0x00, 0xE0], .seek, [], 0) := by
  decide

-- V-TS3
theorem test_tsenc_last :
    after (exec (.tsenc (.ntp (BitVec.ofInt 64 2085978495) 0xFFFFFFFF)) idle) =
      some ([0x00, 0xFF, 0xFF, 0xFF, 0xFF, 0xFF, 0xFF, 0xFF, 0xFF], .seek, [], 0) := by decide

-- V-TS6
theorem test_tsenc_before_1900 :
    after (exec (.tsenc (.ntp (BitVec.ofInt 64 (-2208988801)) 0)) idle) = some ([0x06], .seek, [], 0) := by decide

-- V-TS15
theorem test_tsdec_ntp :
    after (exec (.tsdec zeroField) idle) =
      some ([0x00, 0xFF, 0xFF, 0xFF, 0xFF, 0x7C, 0x55, 0x81, 0x80, 0, 0, 0, 0], .seek, [], 0) := by decide

-- V-TS11
theorem test_tsdec_f64 :
    after (exec (.tsdec ⟨0x7F, 0xF8, 0, 0, 0, 0, 0, 0⟩) idleF64) =
      some ([0x00, 0x7F, 0xF8, 0, 0, 0, 0, 0, 0], .seek, [], 0) := by decide

-- V-REG4, V-REG5
theorem test_typename :
    after (exec (.typename 9) idle) = some ([0x00, 1, 9], .seek, [], 0) ∧
    after (exec (.typename 10) idle) = some ([0x00, 0, 0], .seek, [], 0) := by decide

-- V-EN1
theorem test_encode :
    after (exec (.encode 7 [0xAB, 0xCD] (.ntp 0 0)) idle) = some ([0x00, 0x00, 0x12] ++ fr2, .seek, [], 0) := by decide

-- V-EN7
theorem test_encode_time :
    after (exec (.encode 1 [] (.ntp (BitVec.ofInt 64 (-2208988801)) 0)) idle) = some ([0x06], .seek, [], 0) := by decide

-- V-IL1: an undefined opcode, issued as a step
theorem test_undefined_opcode :
    after (step (issueNext [0x00] (demo .ntp .hdr sync 1))) = some ([0x08], .hdr, sync, 1) := by decide

-- R89: a line of a listing
theorem test_listing_line :
    assembleLine .ntp "HPACK 7, 0x10, 2, ".toList = none ∧
    assembleLine .ntp "TSENC -1, 0x0A ; a comment".toList = some [.tsenc (.ntp (BitVec.ofInt 64 (-1)) 10)] := by decide

-- R117: the largest second of an s64 has an instant, the next none (log entry 19)
theorem test_instant_of_late_time :
    (instantOfTime 9223372036854775807).isSome = true ∧ instantOfTime 9223372036854775808 = none := by decide

-- R89: a digit of either case, and what is none
theorem test_hex_digits :
    "09aAfFgG:".toList.map hexDigit =
      [some 0, some 9, some 10, some 10, some 15, some 15, none, none, none] := by decide

/-! ## The refusals, each reached -/

theorem test_refused_before_reset :
    refusal (step (issueNext [0x05] { idle with wasReset := false })) = some .beforeFirstReset := by decide

theorem test_refused_response_pending :
    refusal (step (demoWith [.command [0x05]] { idle with response := some ⟨.ok, .none⟩ })) = some .responseNotTaken := by
  decide

theorem test_refused_ill_formed :
    refusal (step (issueNext [0x05] (demo .ntp .seek [1, 2, 3] 0))) = some .illFormedState ∧
    refusal (step (issueNext [0x05] (demo .ntp .seek [] 0x02))) = some .illFormedState := by decide

theorem test_refused_not_one_command :
    refusal (step (issueNext [0x01] idle)) = some .notOneCommand ∧
    refusal (step (issueNext [0x05, 0x05] idle)) = some .notOneCommand := by decide

theorem test_refused_other_format :
    refusal (exec (.tsenc (.f64 0)) idle) = some .instantOfOtherFormat ∧
    refusal (exec (.encode 1 [] (.ntp 0 0)) idleF64) = some .instantOfOtherFormat := by decide

/-! ## Witnesses: states and operands that meet the hypotheses of each statement, clause by clause at the edges -/

/-- A command issued to a block that is ready for it. -/
def issued (bytes : List Byte) (s : State) : State := demoWith [.command bytes, .take] s

theorem witness_DecodeReadsWhatEncodeWrites :
    (Instr.encode 7 [0xAB] (.ntp 5 6)).wf .ntp = true ∧ (Instr.tsenc (.f64 1)).wf .f64 = true ∧
    (Instr.csum []).wf .ntp = true := by decide

theorem witness_DecodedBytesAreTheEncoding :
    decode .ntp [0x20, 0x00, 0x03, 9, 8, 7, 6] = .ok (.csum [9, 8, 7]) [6] ∧ decode .f64 [0x02] = .ok .eos [] := by decide

theorem witness_StepRunsTheDecodedCommand :
    (issued [0x01, 0xCD] inPay).host = .command [0x01, 0xCD] :: [.take] ∧
    decode (issued [0x01, 0xCD] inPay).cfg.tsFormat [0x01, 0xCD] = .ok (.push 0xCD) [] ∧
    (issued [0x01, 0xCD] inPay).wasReset = true ∧ (issued [0x01, 0xCD] inPay).response = none ∧
    (issued [0x01, 0xCD] inPay).wf = true := by decide

theorem witness_StepRunsTheEncodedCommand :
    (issued (encode (.tsenc (.f64 9))) idleF64).host = .command (encode (.tsenc (.f64 9))) :: [.take] ∧
    (Instr.tsenc (.f64 9)).wf (issued (encode (.tsenc (.f64 9))) idleF64).cfg.tsFormat = true ∧
    (issued (encode (.tsenc (.f64 9))) idleF64).wasReset = true ∧
    (issued (encode (.tsenc (.f64 9))) idleF64).response = none ∧
    (issued (encode (.tsenc (.f64 9))) idleF64).wf = true := by decide

theorem witness_UndefinedOpcodesRespondIllegalCommand :
    ∀ o ∈ ([0x00, 0x06, 0x0F, 0x12, 0x1F, 0x22, 0x2F, 0x32, 0x3F, 0x41, 0x4F, 0x51, 0xFF] : List Byte),
      (o = 0x00 ∨ (0x06 ≤ o.toNat ∧ o.toNat ≤ 0x0F) ∨ (0x12 ≤ o.toNat ∧ o.toNat ≤ 0x1F) ∨
        (0x22 ≤ o.toNat ∧ o.toNat ≤ 0x2F) ∨ (0x32 ≤ o.toNat ∧ o.toNat ≤ 0x3F) ∨
        (0x41 ≤ o.toNat ∧ o.toNat ≤ 0x4F) ∨ 0x51 ≤ o.toNat) ∧
      (issued [o] inPay).host = .command [o] :: [.take] ∧ (issued [o] inPay).wasReset = true ∧
      (issued [o] inPay).response = none ∧ (issued [o] inPay).wf = true := by decide

theorem witness_ResetWritesTheResetValues :
    (demoWith [.reset, .take] { inPay with wasReset := false, ctrl := 0xFF }).host = .reset :: [.take] ∧
    (Instr.tsenc (.ntp 0 0)).wf inPay.cfg.tsFormat = true := by decide

theorem witness_IdleAndTakeHoldTheState : idle.host = [] ∧ (demoWith [.take] inPay).host = .take :: [] := by decide

theorem witness_CommandsOutsideTheDutiesAreRefused :
    ({ issued [0x05] idle with wasReset := false } : State).host = .command [0x05] :: [.take] ∧
    ({ issued [0x05] idle with wasReset := false } : State).wasReset = false ∧
    ({ issued [0x05] idle with response := some ⟨.ok, .none⟩ } : State).wasReset = true ∧
    ({ issued [0x05] idle with response := some ⟨.ok, .none⟩ } : State).response ≠ none ∧
    (issued [0x05] (demo .ntp .hdr [] 0)).response = none ∧ (issued [0x05] (demo .ntp .hdr [] 0)).wf = false := by
  decide

-- an empty window, a window of two bytes that becomes SYNC, and one that does not
theorem witness_PushSeeksTheMarker :
    idle.tag = .seek ∧ idle.buf.length ≤ 2 ∧
    (demo .ntp .seek [0xA3, 0x9D] 1).buf ++ [0x7A] = [0xA3, 0x9D, 0x7A] ∧
    (demo .ntp .seek [0xA3, 0x9D] 1).buf.length ≤ 2 ∧
    (demo .ntp .seek [0xA3, 0x9D] 1).buf ++ [0x7B] ≠ [0xA3, 0x9D, 0x7A] := by decide

-- the first and the last byte of the header that do not end it
theorem witness_PushCollectsTheHeader :
    (demo .ntp .hdr sync 0).tag = .hdr ∧ (demo .ntp .hdr sync 0).buf.length ≤ 14 ∧
    (demo .ntp .hdr (fr2.take 14) 1).buf.length ≤ 14 := by decide

-- packetSize 15, 0 and 17
theorem witness_PushEndsTheHeader :
    (demo .ntp .hdr (openHeader 0 15) 0).tag = .hdr ∧
    (demo .ntp .hdr (openHeader 0 15) 0).buf ++ [0] = [0xA3, 0x9D, 0x7A, 1, 0, 15, 0, 0] ++ zeroField.bytes ∧
    (0 : Byte).toNat * 256 + (15 : Byte).toNat < 16 ∧
    (demo .ntp .hdr (openHeader 0 0) 1).buf ++ [0] = [0xA3, 0x9D, 0x7A, 1, 0, 0, 0, 0] ++ zeroField.bytes ∧
    (demo .f64 .hdr (openHeader 0 17) 1).buf ++ [0] = [0xA3, 0x9D, 0x7A, 1, 0, 17, 0, 0] ++ zeroField.bytes ∧
    16 < (0 : Byte).toNat * 256 + (17 : Byte).toNat := by decide

theorem witness_PushCollectsThePayload :
    (demo .ntp .pay (fr2.take 16) 0).tag = .pay ∧
    (demo .ntp .pay (fr2.take 16) 0).buf ++ [0xAB] =
      [0xA3, 0x9D, 0x7A, 7, 0x00, 0x12, 0x00, 0xE0] ++ epochField.bytes ++ [0xAB] ∧
    16 + [(0xAB : Byte)].length < (0x00 : Byte).toNat * 256 + (0x12 : Byte).toNat := by decide

-- in HDR with packetSize 16: strict and lenient, the checksum wrong and right
theorem witness_PushCompletesTheFrame_hdr :
    (demo .ntp .hdr fr10.dropLast 1).tag = .hdr ∧
    (demo .ntp .hdr fr10.dropLast 1).buf ++ [0] =
      [0xA3, 0x9D, 0x7A, 1, 0x00, 0x10, 0x00, 0x56] ++ zeroField.bytes ++ [] ∧
    16 + ([] : List Byte).length = (0x00 : Byte).toNat * 256 + (0x10 : Byte).toNat ∧
    (demo .ntp .hdr fr10.dropLast 1).ctrl.getLsbD 0 = true ∧ be16 0x00 0x56 ≠ fold fr10 ∧
    (demo .ntp .hdr fr10.dropLast 0).ctrl.getLsbD 0 = false ∧ be16 0x00 0x55 = fold fr1 := by decide

-- in PAY, strict, the checksum right
theorem witness_PushCompletesTheFrame_pay :
    (demo .ntp .pay (fr2.take 17) 1).tag = .pay ∧
    (demo .ntp .pay (fr2.take 17) 1).buf ++ [0xCD] =
      [0xA3, 0x9D, 0x7A, 7, 0x00, 0x12, 0x00, 0xE0] ++ epochField.bytes ++ [0xAB, 0xCD] ∧
    16 + [(0xAB : Byte), 0xCD].length = (0x00 : Byte).toNat * 256 + (0x12 : Byte).toNat ∧
    be16 0x00 0xE0 = fold fr2 := by decide

/-- For `EosReportsATruncatedFrame` and `ThreeWaysOfEmptyingTheAssembler`. -/
theorem witness_EosReportsATruncatedFrame : idle.tag = .seek ∧ inHdr.tag ≠ .seek ∧ inPay.tag ≠ .seek := by decide

theorem witness_SetmodeWritesStrict :
    (0 : Byte).toNat ≤ 1 ∧ (1 : Byte).toNat ≤ 1 ∧ 2 ≤ (2 : Byte).toNat ∧ 2 ≤ (255 : Byte).toNat := by decide

theorem witness_QueryReportsTheState :
    idle.wf = true ∧ inHdr.wf = true ∧ inPay.wf = true ∧ (demo .f64 .seek [1, 2] 1).wf = true := by decide

theorem witness_ModeChangeReachesTheFrameInProgress :
    (1 : Byte).toNat ≤ 1 ∧ (0 : Byte).toNat ≤ 1 ∧ (demo .ntp .hdr fr10.dropLast 0).tag = .hdr ∧
    (demo .ntp .hdr fr10.dropLast 0).buf ++ [0] =
      [0xA3, 0x9D, 0x7A, 1, 0x00, 0x10, 0x00, 0x56] ++ zeroField.bytes ++ [] ∧
    16 + ([] : List Byte).length = (0x00 : Byte).toNat * 256 + (0x10 : Byte).toNat ∧
    be16 0x00 0x56 ≠ fold fr10 := by decide

theorem witness_TypenameLooksUpTheCode :
    (1 ≤ (1 : Byte).toNat ∧ (1 : Byte).toNat ≤ 9) ∧ (1 ≤ (9 : Byte).toNat ∧ (9 : Byte).toNat ≤ 9) ∧
    10 ≤ (10 : Byte).toNat ∧ 10 ≤ (255 : Byte).toNat := by decide

-- the first and the last second of a u32 since 1900, and the seconds beside them (R112's corner cases)
theorem witness_TsencEncodesNtp :
    idle.cfg.tsFormat = .ntp ∧ -2208988800 ≤ (BitVec.ofInt 64 (-2208988800)).toInt ∧
    (BitVec.ofInt 64 2085978495).toInt ≤ 2085978495 ∧ (BitVec.ofInt 64 (-2208988801)).toInt < -2208988800 ∧
    2085978495 < (BitVec.ofInt 64 2085978496).toInt := by decide

theorem witness_formats : idle.cfg.tsFormat = .ntp ∧ idleF64.cfg.tsFormat = .f64 := by decide

theorem witness_TimestampsRoundTrip :
    exec (.tsenc (.ntp 0 0)) idle = .next { idle with response := some ⟨.ok, .field epochField⟩ } := rfl

-- the first time, one finer than 2^-32 s, and one next to the end
theorem witness_FinerTimesAreFloored :
    ((-2208988800 : Rat) ≤ -2208988800 ∧ (-2208988800 : Rat) < 2085978496) ∧
    ((-2208988800 : Rat) ≤ 1 / 8589934592 ∧ (1 / 8589934592 : Rat) < 2085978496) ∧
    ((-2208988800 : Rat) ≤ 2085978496 - 1 / 3 ∧ (2085978496 - 1 / 3 : Rat) < 2085978496) := by norm_num

theorem witness_CsumAnswersTheFold : (zeros 15).length < 16 ∧ 16 ≤ (zeros 16).length := by decide

theorem witness_CverifyComparesTheStoredChecksum :
    (zeros 15).length < 16 ∧ 16 ≤ fr1.length ∧ fr1[6]? = some 0x00 ∧ fr1[7]? = some 0x55 := by decide

-- a bit outside the checksum field, and one inside it
theorem witness_SingleBitErrorsAreDetected :
    (17 < fr2.length ∧ 0 < 8 ∧ 7 < fr2.length ∧ 7 < 8) ∧
    exec (.cverify fr2) idle = .next { idle with response := some ⟨.ok, .verdict true 0x00E0 0x00E0⟩ } := by
  exact ⟨by decide, rfl⟩

theorem witness_ChecksumIsWeak :
    (fr2.take 6).length = 6 ∧ [0xA3, 0x9D, 0x7A, 7, 0x12, 0x00].length = 6 ∧
    (fr2.take 6 ++ fr2.drop 8).Perm ([0xA3, 0x9D, 0x7A, 7, 0x12, 0x00] ++ fr2.drop 8) := by decide

theorem witness_VerifiedFramesXorToZero :
    exec (.cverify fr2) idle = .next { idle with response := some ⟨.ok, .verdict true 0x00E0 0x00E0⟩ } := rfl

theorem witness_RunningAccumulatorEqualsTheFold : 8 ≤ (fr2.take 8).length := by decide

theorem witness_HpackLaysOutTheHeader :
    (0 : U16).toNat ≤ 65519 ∧ (65519 : U16).toNat ≤ 65519 ∧ 65519 < (65520 : U16).toNat := by decide

theorem witness_HunpackReadsTheFields :
    [(0xA3 : Byte), 0x9D, 0x7A] = [0xA3, 0x9D, 0x7A] ∧ [(0xA3 : Byte), 0x9D, 0x7B] ≠ [0xA3, 0x9D, 0x7A] := by decide

theorem witness_HeadersRoundTrip :
    (65519 : U16).toNat ≤ 65519 ∧ [(0xA3 : Byte), 0x9D, 0x7A] = [0xA3, 0x9D, 0x7A] ∧ 16 ≤ (16 : U16).toNat := by decide

theorem witness_EncodeBuildsTheFrame :
    1 ≤ (1 : Byte).toNat ∧ (9 : Byte).toNat ≤ 9 ∧ (zeros 65519).length ≤ 65519 ∧
    (Instant.ntp 0 0).format = idle.cfg.tsFormat ∧ (Instant.f64 7).format = idleF64.cfg.tsFormat ∧
    ∀ sec frac, Instant.ntp 0 0 = .ntp sec frac → -2208988800 ≤ sec.toInt ∧ sec.toInt ≤ 2085978495 := by
  refine ⟨by decide, by decide, by rw [zeros_length], rfl, rfl, ?_⟩
  intro sec frac h
  injection h with h
  rw [← h]
  decide

theorem witness_EncodeChecksInOrder :
    (Instant.ntp (BitVec.ofInt 64 2085978496) 0).format = idle.cfg.tsFormat ∧ 10 ≤ (10 : Byte).toNat ∧
    (1 ≤ (9 : Byte).toNat ∧ (9 : Byte).toNat ≤ 9) ∧ 65519 < (zeros 65520).length ∧
    (zeros 65519).length ≤ 65519 ∧ 2085978495 < (BitVec.ofInt 64 2085978496).toInt := by
  exact ⟨rfl, by decide, by decide, by rw [zeros_length]; decide, by rw [zeros_length], by decide⟩

/-- For `EncodeComposesTheUnits`, `EncodedFramesVerify` and `EncodedFramesAreReceived`. -/
theorem witness_EncodedFrames :
    idle.tag = .seek ∧ idle.buf = [] ∧
    exec (.encode 7 [0xAB, 0xCD] (.ntp 0 0)) idle =
      .next { idle with response := some ⟨.ok, .frame 0x0012 fr2⟩ } := ⟨rfl, rfl, rfl⟩

-- a TYPENAME and an ENCODE between two PUSH commands
theorem witness_PureCommandsBetweenPushesChangeNothing :
    idle.wf = true ∧
    ∀ i ∈ [Instr.push 0xA3, .typename 7, .encode 7 [0xAB] (.ntp 0 0), .push 0x9D], i.wf idle.cfg.tsFormat = true := by
  decide

theorem witness_NoStreamStopsTheAssembler : inPay.wf = true ∧ (demo .f64 .hdr sync 1).wf = true := by decide

-- strict with the right checksum, lenient with a wrong one
theorem witness_GarbageThenAFrameGivesOnePacket :
    (idle.tag = .seek ∧ idle.buf = [] ∧
      fr10 = [0xA3, 0x9D, 0x7A, 1, 0x00, 0x10, 0x00, 0x56] ++ zeroField.bytes ++ [] ∧
      16 + ([] : List Byte).length = (0x00 : Byte).toNat * 256 + (0x10 : Byte).toNat ∧
      (idle.ctrl.getLsbD 0 = true → be16 0x00 0x56 = fold fr10)) ∧
    ((demo .ntp .seek [] 1).tag = .seek ∧ (demo .ntp .seek [] 1).buf = [] ∧
      fr2 = [0xA3, 0x9D, 0x7A, 7, 0x00, 0x12, 0x00, 0xE0] ++ epochField.bytes ++ [0xAB, 0xCD] ∧
      16 + [(0xAB : Byte), 0xCD].length = (0x00 : Byte).toNat * 256 + (0x12 : Byte).toNat ∧
      ((demo .ntp .seek [] 1).ctrl.getLsbD 0 = true → be16 0x00 0xE0 = fold fr2)) := by decide

/-- For `StepKeepsTheInvariant` and `BufferNeverOverflows`. -/
theorem witness_StepKeepsTheInvariant :
    Inv (issued [0x02] inPay) ∧
    step (issued [0x02] inPay) =
      .next { demoWith [.take] idle with response := some ⟨.truncatedFrame, .truncated .pay 0x0011⟩ } := by
  exact ⟨fun _ => by decide, rfl⟩

-- one state of each row of R24's table
theorem witness_InvariantIsTheTableOfStates :
    (demo .ntp .seek [1, 2] 1).wf = true ∧ (demo .ntp .hdr (openHeader 0 0) 0).wf = true ∧ inPay.wf = true := by decide

theorem witness_EveryCommandAnswersOneResponse :
    (Instr.encode 0 [] (.f64 1)).wf (demo .f64 .pay (fr2.take 17) 1).cfg.tsFormat = true ∧
    (demo .f64 .pay (fr2.take 17) 1).wf = true := by decide

theorem witness_DutifulHostsAreNeverRefused :
    Inv (demoWith [.reset, .command [0x01, 0xA3], .take, .command [0xFF]] { inPay with wasReset := false }) ∧
    dutiful (demoWith [.reset, .command [0x01, 0xA3], .take, .command [0xFF]] { inPay with wasReset := false }) = true := by
  exact ⟨fun h => by simp [demoWith] at h, by decide⟩

theorem witness_StatelessUnitsReadOnlyTheConfiguration :
    isPure (.encode 7 [] (.ntp 0 0)) = true ∧ (Instr.encode 7 [] (.ntp 0 0)).wf idle.cfg.tsFormat = true ∧
    inPay.cfg = idle.cfg ∧ inPay ≠ idle := by decide

/-- For `FailuresWriteNothing` and `StatusesOfEachCommand`: the strict reject. -/
theorem witness_FailuresWriteNothing :
    exec (.push 0) (demo .ntp .hdr fr10.dropLast 1) =
      .next { demo .ntp .seek [] 1 with response := some ⟨.checksumMismatch, .mismatch 0x0056 0x0055⟩ } ∧
    Status.checksumMismatch ≠ .ok := ⟨rfl, by decide⟩

theorem witness_OnlySetmodeAndResetWriteCtrl :
    exec (.setmode 1) idle = .next { idle with ctrl := 0x01, response := some ⟨.ok, .none⟩ } ∧
    step (demoWith [.reset] (demo .ntp .seek [] 1)) = .next idle ∧
    idle.ctrl ≠ (demo .ntp .seek [] 1).ctrl := ⟨rfl, rfl, by decide⟩

theorem witness_AssemblerMovesOnlyOnPushEosFlush :
    exec (.push 0x7A) (demo .ntp .seek [0xA3, 0x9D] 0) =
      .next { demo .ntp .hdr sync 0 with response := some ⟨.ok, .nothingCompleted⟩ } ∧
    AsmTag.hdr ≠ .seek := ⟨rfl, by decide⟩

theorem witness_PacketsComeOnlyFromPush :
    inPay.wf = true ∧
    exec (.push 0xCD) inPay =
      .next { idle with response := some ⟨.ok, .packet ⟨7, 3, 0x0012, 0x00E0, epochField, [0xAB, 0xCD]⟩⟩ } := by
  exact ⟨by decide, rfl⟩

end Sys2Proof.Tests
end

section
/-! PROOFS. The facts about the decoder that the steps need: it reads back what the encoder writes (spec/30_encoding.md
R80 to R83). -/
namespace Sys2Proof

/-- The readers of a command's format take exactly the operands the encoder wrote (R81). -/
theorem takeOperands_operandBytes {fmt : TsFormat} {i : Instr} (hi : i.wf fmt = true) (rest : List Byte) :
    takeOperands fmt i.op (operandBytes i ++ rest) = some (i, rest) := by
  cases i with
  | push b => rfl
  | eos => rfl
  | flush => rfl
  | setmode m => rfl
  | query => rfl
  | hpack ty pl cs t =>
    simp [takeOperands, Instr.op, operandBytes, takeByte_cons, takeU16_bytes16, takeOctets_bytes]
  | hunpack h => simp [takeOperands, Instr.op, operandBytes, takeHeader_bytes]
  | csum v => simp [takeOperands, Instr.op, operandBytes, takeVar_varBytes (of_decide_eq_true hi)]
  | cverify v => simp [takeOperands, Instr.op, operandBytes, takeVar_varBytes (of_decide_eq_true hi)]
  | tsenc I =>
    obtain rfl : I.format = fmt := of_decide_eq_true hi
    simp [takeOperands, Instr.op, operandBytes, takeInstant_bytes]
  | tsdec t => simp [takeOperands, Instr.op, operandBytes, takeOctets_bytes]
  | typename code => rfl
  | encode ty v I =>
    simp only [Instr.wf, lengthFits, Bool.and_eq_true, decide_eq_true_eq] at hi
    obtain ⟨hv, rfl⟩ := hi
    simp [takeOperands, Instr.op, operandBytes, takeByte_cons, takeVar_varBytes hv, takeInstant_bytes]

/-- Decoding inverts encoding, whatever bytes follow the command (R80, R83). -/
theorem decode_encode_append {fmt : TsFormat} {i : Instr} (hi : i.wf fmt = true) (rest : List Byte) :
    decode fmt (encode i ++ rest) = .ok i rest := by
  rw [encode, List.cons_append, decode_cons_code, takeOperands_operandBytes hi]

theorem decode_encode {fmt : TsFormat} {i : Instr} (hi : i.wf fmt = true) : decode fmt (encode i) = .ok i [] := by
  simpa using decode_encode_append hi []

end Sys2Proof
end

section
/-! PROOFS. A step on an issued command runs that command (spec/00_scope.md R3). -/
namespace Sys2Proof.Machine

/-- Making a move of the host leaves the state well formed or ill formed as it was. -/
@[simp] theorem wf_withHost (s : State) (rest : List HostMove) : ({ s with host := rest } : State).wf = s.wf :=
  wf_congr rfl rfl rfl

/-- The step of a command move is the performance of its bytes on the state past the move (R240). -/
theorem step_command {s : State} {bytes : List Byte} {rest : List HostMove} (hh : s.host = .command bytes :: rest) :
    step s = performCommand bytes { s with host := rest } := by
  simp only [step, answerHost, hh]

/-- On a state that accepts a command, bytes that decode to exactly one command are that command's execution. -/
theorem performCommand_of_decode {s : State} {bytes : List Byte} {i : Instr}
    (hd : decode s.cfg.tsFormat bytes = .ok i []) (hw : s.wasReset = true) (hr : s.response = none) (hf : s.wf = true) :
    performCommand bytes s = exec i s := by
  rw [performCommand_ready bytes hw hr hf, hd]

/-- Settles O5: the move is made, then the decoded command is performed. -/
theorem stepRunsTheDecodedCommand : Obligations.StepRunsTheDecodedCommand := by
  intro s bytes rest i hh hd hw hr hf
  rw [step_command hh]
  exact performCommand_of_decode hd hw hr (by rw [wf_withHost, hf])

/-- Settles O6: by O5, as decoding inverts encoding. -/
theorem stepRunsTheEncodedCommand : Obligations.StepRunsTheEncodedCommand := by
  intro s rest i hh hi hw hr hf
  exact stepRunsTheDecodedCommand s (encode i) rest i hh (decode_encode hi) hw hr hf

end Sys2Proof.Machine
end

section
/-! PROOFS. The states R24 allows, row by row, and the updates that keep them (spec/10_state.md R24, R27). -/
namespace Sys2Proof.Machine

theorem wf_iff (s : State) : s.wf = true ↔ assemblerWf s = true ∧ s.ctrl.extractLsb' 1 7 = 0 := by
  simp [State.wf]

theorem wf_seek_iff {s : State} (h : s.tag = .seek) :
    s.wf = true ↔ s.buf.length ≤ 2 ∧ s.ctrl.extractLsb' 1 7 = 0 := by
  simp [wf_iff, assemblerWf, h]

theorem wf_hdr_iff {s : State} (h : s.tag = .hdr) :
    s.wf = true ↔ (3 ≤ s.buf.length ∧ s.buf.length ≤ 15 ∧ s.buf.take 3 = sync) ∧ s.ctrl.extractLsb' 1 7 = 0 := by
  simp [wf_iff, assemblerWf, h, and_assoc]

theorem wf_pay_iff {s : State} (h : s.tag = .pay) :
    s.wf = true ↔ (∃ hd payload, frameFields s.buf = some (hd, payload) ∧ 16 ≤ s.buf.length ∧
      s.buf.length < hd.ps.toNat ∧ s.buf.take 3 = sync) ∧ s.ctrl.extractLsb' 1 7 = 0 := by
  rcases hf : frameFields s.buf with - | ⟨hd, payload⟩
  · simp [wf_iff, assemblerWf, packetSize, h, hf]
  · simp [wf_iff, assemblerWf, packetSize, h, hf, and_assoc]

theorem ctrl_of_wf {s : State} (h : s.wf = true) : s.ctrl.extractLsb' 1 7 = 0 := ((wf_iff s).1 h).2

/-- R9, R22: a buffer R24 allows is shorter than the largest packetSize. -/
theorem buf_length_le_of_wf {s : State} (h : s.wf = true) : s.buf.length ≤ 65534 := by
  cases ht : s.tag with
  | seek =>
    obtain ⟨hlen, -⟩ := (wf_seek_iff ht).1 h
    omega
  | hdr =>
    obtain ⟨⟨-, hlen, -⟩, -⟩ := (wf_hdr_iff ht).1 h
    omega
  | pay =>
    obtain ⟨⟨hd, -, -, -, hlen, -⟩, -⟩ := (wf_pay_iff ht).1 h
    have := hd.ps.isLt
    omega

/-- The response is no part of what R24 speaks of. -/
@[simp] theorem wf_withResponse (s : State) (r : Option Response) : ({ s with response := r } : State).wf = s.wf :=
  wf_congr rfl rfl rfl

@[simp] theorem wf_takeResponse (s : State) : (takeResponse s).wf = s.wf := wf_congr rfl rfl rfl

theorem wf_assertReset (s : State) : (assertReset s).wf = true :=
  (wf_seek_iff rfl).2 ⟨Nat.zero_le 2, by rw [assertReset_ctrl]; decide⟩

theorem wf_setAssembler_seek {s : State} (h : s.wf = true) {w : List Byte} (hw : w.length ≤ 2) :
    (setAssembler .seek w s).wf = true :=
  (wf_seek_iff rfl).2 ⟨hw, ctrl_of_wf (s := s) h⟩

theorem wf_setAssembler_hdr {s : State} (h : s.wf = true) {f : List Byte} (hmin : 3 ≤ f.length) (hmax : f.length ≤ 15)
    (hsync : f.take 3 = sync) : (setAssembler .hdr f s).wf = true :=
  (wf_hdr_iff rfl).2 ⟨⟨hmin, hmax, hsync⟩, ctrl_of_wf (s := s) h⟩

theorem wf_setAssembler_pay {s : State} (h : s.wf = true) {f payload : List Byte} {hd : HeaderBytes}
    (hf : frameFields f = some (hd, payload)) (hmin : 16 ≤ f.length) (hmax : f.length < hd.ps.toNat)
    (hsync : f.take 3 = sync) : (setAssembler .pay f s).wf = true :=
  (wf_pay_iff rfl).2 ⟨⟨hd, payload, hf, hmin, hmax, hsync⟩, ctrl_of_wf (s := s) h⟩

theorem wf_emptyAssembler {s : State} (h : s.wf = true) : (emptyAssembler s).wf = true :=
  wf_setAssembler_seek h (Nat.zero_le 2)

theorem wf_writeStrict {s : State} (h : s.wf = true) (b : Bool) : (writeStrict b s).wf = true := by
  have hc : (writeStrict b s).ctrl.extractLsb' 1 7 = 0 := by
    rw [writeStrict_ctrl]
    cases b <;> decide
  exact (wf_iff _).2 ⟨((wf_iff s).1 h).1, hc⟩

end Sys2Proof.Machine
end

section
/-! PROOFS. The stateless units: a response fixed by CFG and the command, and nothing else written (spec/10_state.md R33). -/
namespace Sys2Proof.Machine

/-- Under the configuration `c` the operation `f` answers one response, the same in every state, and writes nothing else. -/
def RespondsOnly (f : State → Answer) (c : Config) : Prop :=
  ∃ r, ∀ s : State, s.cfg = c → f s = .next { s with response := some r }

theorem respondsOnly_respond (st : Status) (r : Results) (c : Config) : RespondsOnly (respond st r) c :=
  ⟨⟨st, r⟩, fun _ _ => rfl⟩

theorem respondsOnly_ite {p : Prop} [Decidable p] {f g : State → Answer} {c : Config} (hf : RespondsOnly f c)
    (hg : RespondsOnly g c) : RespondsOnly (fun s => if p then f s else g s) c := by
  by_cases hp : p
  · simpa only [hp, if_true] using hf
  · simpa only [hp, if_false] using hg

theorem respondsOnly_congr {f g : State → Answer} {c : Config} (hg : RespondsOnly g c)
    (h : ∀ s : State, s.cfg = c → f s = g s) : RespondsOnly f c := by
  obtain ⟨r, hr⟩ := hg
  exact ⟨r, fun s hs => (h s hs).trans (hr s hs)⟩

/-- The stored checksum is read from the operand, so every branch of CVERIFY only responds (R132, R133). -/
theorem execCverify_respondsOnly (v : List Byte) (c : Config) : RespondsOnly (execCverify v) c := by
  refine respondsOnly_ite (respondsOnly_respond ..) ?_
  cases storedChecksum v with
  | none => exact respondsOnly_respond ..
  | some stored => exact respondsOnly_respond ..

/-- The encoder of instants turns away exactly the instants of the other TS_FORMAT (R82). -/
theorem encodeInstant_eq_otherFormat_iff {fmt : TsFormat} {I : Instant} :
    encodeInstant fmt I = .otherFormat ↔ I.format ≠ fmt := by
  have hntp (sec : S64) (frac : U32) : encodeNtp sec frac ≠ .otherFormat := by
    unfold encodeNtp
    dsimp only
    split <;> simp
  cases fmt <;> cases I <;> simp [encodeInstant, Instant.format, hntp]

/-- TSENC refuses an instant of the other format and nothing else (R112, R113). -/
theorem execTsenc_respondsOnly {I : Instant} {c : Config} (hI : I.format = c.tsFormat) :
    RespondsOnly (execTsenc I) c := by
  cases he : encodeInstant c.tsFormat I with
  | field t => exact respondsOnly_congr (respondsOnly_respond ..) fun s hs => by rw [execTsenc, hs, he]; rfl
  | outOfRange => exact respondsOnly_congr (respondsOnly_respond ..) fun s hs => by rw [execTsenc, hs, he]; rfl
  | otherFormat => exact absurd hI (encodeInstant_eq_otherFormat_iff.1 he)

/-- ENCODE refuses an instant of the other format and nothing else (R210). -/
theorem execEncode_respondsOnly (ty : Byte) (v : List Byte) {I : Instant} {c : Config} (hI : I.format = c.tsFormat) :
    RespondsOnly (execEncode ty v I) c := by
  have hchecks (st : Status) (r : Results) : RespondsOnly (fun s =>
      if (!known ty) = true then raise .unknownMessageType .none s
      else if v.length > maxPayload then raise .payloadTooLong .none s else respond st r s) c :=
    respondsOnly_ite (respondsOnly_respond ..) (respondsOnly_ite (respondsOnly_respond ..) (respondsOnly_respond ..))
  cases he : encodeInstant c.tsFormat I with
  | field t => exact respondsOnly_congr (hchecks ..) fun s hs => by rw [execEncode, hs, he]; rfl
  | outOfRange => exact respondsOnly_congr (hchecks ..) fun s hs => by rw [execEncode, hs, he]; rfl
  | otherFormat => exact absurd hI (encodeInstant_eq_otherFormat_iff.1 he)

/-- A command of a stateless unit either is refused, having an instant of the other format, or writes the response
only (R33, R82). -/
theorem exec_pure {i : Instr} (hp : isPure i = true) (c : Config) :
    RespondsOnly (exec i) c ∨
    (i.wf c.tsFormat = false ∧ ∀ s : State, s.cfg = c → exec i s = .refused .instantOfOtherFormat) := by
  cases i with
  | push b => cases hp
  | eos => cases hp
  | flush => cases hp
  | setmode m => cases hp
  | query => cases hp
  | hpack ty pl cs t => exact .inl (respondsOnly_ite (respondsOnly_respond ..) (respondsOnly_respond ..))
  | hunpack h => exact .inl (respondsOnly_ite (respondsOnly_respond ..) (respondsOnly_respond ..))
  | csum v => exact .inl (respondsOnly_ite (respondsOnly_respond ..) (respondsOnly_respond ..))
  | cverify v => exact .inl (execCverify_respondsOnly v c)
  | tsenc I =>
    by_cases hI : I.format = c.tsFormat
    · exact .inl (execTsenc_respondsOnly hI)
    · have he := encodeInstant_eq_otherFormat_iff.2 hI
      exact .inr ⟨decide_eq_false hI, fun s hs => by simp only [exec, execTsenc, hs, he]⟩
  | tsdec t => exact .inl ⟨⟨.ok, .instant (decodeField c.tsFormat t)⟩, by rintro s rfl; rfl⟩
  | typename code => exact .inl (respondsOnly_ite (respondsOnly_respond ..) (respondsOnly_respond ..))
  | encode ty v I =>
    by_cases hI : I.format = c.tsFormat
    · exact .inl (execEncode_respondsOnly ty v hI)
    · have he := encodeInstant_eq_otherFormat_iff.2 hI
      exact .inr ⟨by simp [Instr.wf, hI], fun s hs => by simp only [exec, execEncode, hs, he]⟩

/-- A well-formed command of a stateless unit writes the response only. -/
theorem exec_pure_respondsOnly {i : Instr} (hp : isPure i = true) {c : Config} (hi : i.wf c.tsFormat = true) :
    RespondsOnly (exec i) c := by
  obtain h | ⟨hwf, -⟩ := exec_pure hp c
  · exact h
  · rw [hi] at hwf
    cases hwf

/-- What a command of a stateless unit answers, it answers in the state handed over but for the response. -/
theorem exec_pure_next {i : Instr} (hp : isPure i = true) {s t : State} (h : exec i s = .next t) :
    ∃ r, t = { s with response := some r } := by
  obtain ⟨r, hr⟩ | ⟨-, href⟩ := exec_pure hp s.cfg
  · rw [hr s rfl] at h
    injection h with h
    exact ⟨r, h.symm⟩
  · rw [href s rfl] at h
    cases h

end Sys2Proof.Machine
end

section
/-! PROOFS. The assembler's commands: one response and a block state of R24, both fixed by CFG and the block state before
the command (spec/45_assembler.md R171 to R179). -/
namespace Sys2Proof.Machine

/-- On the configuration and the block state of `s`, the operation `f` answers one block state, which R24 allows, and one
response; the rest of the machine is neither read nor written (R15). -/
def AnswersOnce (f : State → Answer) (s : State) : Prop :=
  ∃ b r, ({ s with toBlockState := b } : State).wf = true ∧
    ∀ u : State, u.cfg = s.cfg → u.toBlockState = s.toBlockState →
      f u = .next { u with toBlockState := b, response := some r }

theorem answersOnce_of_respondsOnly {f : State → Answer} {s : State} (hs : s.wf = true) (hf : RespondsOnly f s.cfg) :
    AnswersOnce f s := by
  obtain ⟨r, hr⟩ := hf
  exact ⟨s.toBlockState, r, hs, fun u hc hb => by rw [hr u hc, ← hb]⟩

theorem answersOnce_congr {f g : State → Answer} {s : State} (hg : AnswersOnce g s)
    (h : ∀ u : State, u.toBlockState = s.toBlockState → u.cfg = s.cfg → f u = g u) : AnswersOnce f s := by
  obtain ⟨b, r, hwf, hr⟩ := hg
  exact ⟨b, r, hwf, fun u hc hb => (h u hb hc).trans (hr u hc hb)⟩

theorem answersOnce_ite {p : Prop} [Decidable p] {f g : State → Answer} {s : State} (hf : p → AnswersOnce f s)
    (hg : ¬ p → AnswersOnce g s) : AnswersOnce (fun u => if p then f u else g u) s := by
  by_cases hp : p
  · simpa only [hp, if_true] using hf hp
  · simpa only [hp, if_false] using hg hp

theorem answersOnce_setAssembler {tag : AsmTag} {buf : List Byte} {s : State} (h : (setAssembler tag buf s).wf = true)
    (st : Status) (r : Results) : AnswersOnce (fun u => respond st r (setAssembler tag buf u)) s := by
  refine ⟨⟨tag, buf, s.ctrl⟩, ⟨st, r⟩, h, fun u _ hb => ?_⟩
  rw [← hb]
  rfl

theorem answersOnce_emptyAssembler {s : State} (hs : s.wf = true) (st : Status) (r : Results) :
    AnswersOnce (fun u => respond st r (emptyAssembler u)) s :=
  answersOnce_setAssembler (wf_emptyAssembler hs) st r

/-- COMPLETE reads STRICT of the state and the frame it is given (R174). -/
theorem answersOnce_complete {s : State} (hs : s.wf = true) (f : List Byte) (hd : HeaderBytes) (payload : List Byte) :
    AnswersOnce (complete f hd payload) s := by
  have hends (st : Status) (r : Results) := answersOnce_emptyAssembler hs st r
  refine answersOnce_congr (answersOnce_ite (p := strict s = true ∧ hd.cs ≠ fold f)
    (fun _ => hends .checksumMismatch (.mismatch hd.cs (fold f)))
    fun _ => hends .ok (.packet (packetOf hd payload f.length (decide (hd.cs = fold f))))) fun u hb _ => ?_
  have hstrict : strict u = strict s := by simp only [strict, hb]
  rw [complete_eq, hstrict]
  split <;> rfl

theorem answersOnce_pushSeek {s : State} (hs : s.wf = true) {w : List Byte} (hw : w.length ≤ 3) :
    AnswersOnce (pushSeek w) s := by
  refine answersOnce_ite (fun h => ?_) fun _ => answersOnce_ite (fun h => ?_) fun _ => ?_
  · exact answersOnce_setAssembler (wf_setAssembler_seek hs (Nat.le_of_lt_succ h)) ..
  · subst h
    exact answersOnce_setAssembler (wf_setAssembler_hdr hs (by decide) (by decide) rfl) ..
  · exact answersOnce_setAssembler (wf_setAssembler_seek hs (List.length_take_le ..)) ..

/-- HEADER_DONE keeps the frame for PAY only where bytes of it are still to come (R172). -/
theorem answersOnce_headerDone {s : State} (hs : s.wf = true) {f : List Byte} (hlen : f.length = 16)
    (hsync : f.take 3 = sync) : AnswersOnce (headerDone f) s := by
  obtain ⟨hd, payload, hf, -⟩ := frameFields_of_length hlen.ge
  refine answersOnce_congr ?_ fun u _ _ => by rw [headerDone, hf]
  refine answersOnce_ite (fun _ => answersOnce_emptyAssembler hs ..) fun hge =>
    answersOnce_ite (fun _ => answersOnce_complete hs ..) fun hne => ?_
  have hps : f.length < hd.ps.toNat := by
    simp only [hdrLen] at hge hne
    omega
  exact answersOnce_setAssembler (wf_setAssembler_pay hs hf hlen.ge hps hsync) ..

theorem answersOnce_pushHdr {s : State} (hs : s.wf = true) {f : List Byte} (hmin : 3 ≤ f.length) (hmax : f.length ≤ 16)
    (hsync : f.take 3 = sync) : AnswersOnce (pushHdr f) s := by
  refine answersOnce_ite (fun hlt => ?_) fun hge => answersOnce_headerDone hs ?_ hsync
  · exact answersOnce_setAssembler (wf_setAssembler_hdr hs hmin (Nat.le_of_lt_succ hlt) hsync) ..
  · exact le_antisymm hmax (Nat.not_lt.1 hge)

theorem answersOnce_pushPay {s : State} (hs : s.wf = true) {f : List Byte} (hmin : 16 ≤ f.length)
    (hsync : f.take 3 = sync) : AnswersOnce (pushPay f) s := by
  obtain ⟨hd, payload, hf, -⟩ := frameFields_of_length hmin
  refine answersOnce_congr ?_ fun u _ _ => by rw [pushPay, hf]
  refine answersOnce_ite (fun hlt => ?_) fun _ => answersOnce_complete hs ..
  exact answersOnce_setAssembler (wf_setAssembler_pay hs hf hmin hlt hsync) ..

/-- PUSH on a state of R24: the tag's arm, on the buffer with the byte after it (R171). -/
theorem answersOnce_execPush {s : State} (hs : s.wf = true) (b : Byte) : AnswersOnce (execPush b) s := by
  have hlen : (appended s b).length = s.buf.length + 1 := by simp [appended]
  have hsync (hmin : 3 ≤ s.buf.length) (h : s.buf.take 3 = sync) : (appended s b).take 3 = sync := by
    rw [appended, List.take_append_of_le_length hmin, h]
  cases ht : s.tag with
  | seek =>
    obtain ⟨hmax, -⟩ := (wf_seek_iff ht).1 hs
    exact answersOnce_congr (answersOnce_pushSeek hs (w := appended s b) (by omega))
      fun u hb _ => by simp only [execPush, appended, hb, ht]
  | hdr =>
    obtain ⟨⟨hmin, hmax, h3⟩, -⟩ := (wf_hdr_iff ht).1 hs
    exact answersOnce_congr (answersOnce_pushHdr hs (f := appended s b) (by omega) (by omega) (hsync hmin h3))
      fun u hb _ => by simp only [execPush, appended, hb, ht]
  | pay =>
    obtain ⟨⟨-, -, -, hmin, -, h3⟩, -⟩ := (wf_pay_iff ht).1 hs
    exact answersOnce_congr (answersOnce_pushPay hs (f := appended s b) (by omega) (hsync (by omega) h3))
      fun u hb _ => by simp only [execPush, appended, hb, ht]

/-- EOS reports what is left of the frame in the buffer (R176). -/
theorem answersOnce_execEos {s : State} (hs : s.wf = true) : AnswersOnce execEos s := by
  cases ht : s.tag with
  | seek =>
    exact answersOnce_congr (answersOnce_emptyAssembler hs .ok .none) fun u hb _ => by
      simp only [execEos, hb, ht, ok]
  | hdr =>
    exact answersOnce_congr (answersOnce_emptyAssembler hs .truncatedFrame (.truncated .hdr (asmLen s))) fun u hb _ => by
      simp only [execEos, asmLen, hb, ht, raise]
  | pay =>
    exact answersOnce_congr (answersOnce_emptyAssembler hs .truncatedFrame (.truncated .pay (asmLen s))) fun u hb _ => by
      simp only [execEos, asmLen, hb, ht, raise]

/-- SETMODE writes a byte of R27 or nothing (R178). -/
theorem answersOnce_execSetmode {s : State} (hs : s.wf = true) (m : Byte) : AnswersOnce (execSetmode m) s := by
  refine answersOnce_ite (fun _ => ?_) fun _ =>
    answersOnce_of_respondsOnly hs (respondsOnly_respond .illegalCommand .none s.cfg)
  refine ⟨(writeStrict (m.getLsbD 0) s).toBlockState, ⟨.ok, .none⟩, wf_writeStrict hs _, fun u _ hb => ?_⟩
  rw [writeStrict_toBlockState, ← hb]
  rfl

/-- QUERY reads CFG and the block's state and writes neither (R179). -/
theorem answersOnce_execQuery {s : State} (hs : s.wf = true) : AnswersOnce execQuery s := by
  refine ⟨s.toBlockState, ⟨.ok, .state s.tag (asmLen s) (readCtrl s) (readCfg s)⟩, hs, fun u hc hb => ?_⟩
  simp only [execQuery, ok_eq, asmLen, readCtrl, readCfg, hc, hb]

/-- A command of the assembler is performed on every state of R24. -/
theorem answersOnce_exec_of_not_pure {i : Instr} (hp : isPure i = false) {s : State} (hs : s.wf = true) :
    AnswersOnce (exec i) s := by
  cases i with
  | push b => exact answersOnce_execPush hs b
  | eos => exact answersOnce_execEos hs
  | flush => exact answersOnce_emptyAssembler hs .ok .none
  | setmode m => exact answersOnce_execSetmode hs m
  | query => exact answersOnce_execQuery hs
  | hpack ty pl cs t => cases hp
  | hunpack h => cases hp
  | csum v => cases hp
  | cverify v => cases hp
  | tsenc I => cases hp
  | tsdec t => cases hp
  | typename code => cases hp
  | encode ty v I => cases hp

end Sys2Proof.Machine
end

section
/-! PROOFS. Every command on every state of R24 (spec/00_scope.md R9, R15; spec/10_state.md R24). -/
namespace Sys2Proof.Machine

/-- A well-formed command is performed on every state of R24, whichever unit it belongs to. -/
theorem answersOnce_exec {i : Instr} {s : State} (hi : i.wf s.cfg.tsFormat = true) (hs : s.wf = true) :
    AnswersOnce (exec i) s := by
  cases hp : isPure i with
  | true => exact answersOnce_of_respondsOnly hs (exec_pure_respondsOnly hp hi)
  | false => exact answersOnce_exec_of_not_pure hp hs

/-- Settles O53: one answer serves both the machine at hand and the one R15's function runs on. -/
theorem everyCommandAnswersOneResponse : Obligations.EveryCommandAnswersOneResponse := by
  intro i s hi hs
  obtain ⟨b, r, -, hanswer⟩ := answersOnce_exec hi hs
  exact ⟨b, r, transaction_eq_some.2 ⟨_, hanswer _ rfl rfl, rfl, rfl⟩, hanswer s rfl rfl⟩

/-- A command keeps R24, well formed or not: one that is not is refused or writes the response only. -/
theorem exec_keeps_wf {i : Instr} {s t : State} (hs : s.wf = true) (h : exec i s = .next t) : t.wf = true := by
  cases hp : isPure i with
  | true =>
    obtain ⟨r, rfl⟩ := exec_pure_next hp h
    rw [wf_withResponse, hs]
  | false =>
    obtain ⟨b, r, hwf, hanswer⟩ := answersOnce_exec_of_not_pure hp hs
    rw [hanswer s rfl rfl] at h
    injection h with h
    rw [← h, ← hwf]
    exact wf_congr rfl rfl rfl

/-- A performed command keeps R24, an undefined opcode too (R84). -/
theorem performCommand_keeps_wf {bytes : List Byte} {s t : State} (h : performCommand bytes s = .next t) :
    t.wf = true := by
  obtain ⟨-, -, hs, ⟨i, -, hexec⟩ | ⟨-, -, -, rfl⟩⟩ := performCommand_cases h
  · exact exec_keeps_wf hs hexec
  · rw [wf_withResponse, hs]

/-- The invariant holds after every step from a state with it (R24, R262). -/
theorem step_keeps_inv {s t : State} (hs : Inv s) (h : step s = .next t) : Inv t := by
  intro hw
  obtain ⟨-, rfl⟩ | ⟨rest, -, rfl⟩ | ⟨rest, -, rfl⟩ | ⟨bytes, rest, -, hp⟩ := step_cases h
  · exact hs hw
  · exact wf_assertReset _
  · rw [wf_takeResponse, wf_withHost]
    exact hs hw
  · exact performCommand_keeps_wf hp

/-- Settles O52: the step keeps the invariant, and every buffer R24 allows is short enough. -/
theorem bufferNeverOverflows : Obligations.BufferNeverOverflows := by
  intro s t hs h hw
  exact buf_length_le_of_wf (step_keeps_inv hs h hw)

end Sys2Proof.Machine
end

section
/-! PROOFS. The decoder inverts the encoder (spec/30_encoding.md R80 to R83). -/
namespace Sys2Proof

theorem takeByte_eq_some {bs rest : List Byte} {b : Byte} (h : takeByte bs = some (b, rest)) : bs = b :: rest := by
  cases bs with
  | nil => cases h
  | cons a r =>
    injection h with h
    injection h with h1 h2
    rw [h1, h2]

/-- The operands the readers take stood there as the encoder writes them, and make a well-formed command (R81). -/
theorem takeOperands_eq_some {fmt : TsFormat} {op : Op} {bs rest : List Byte} {i : Instr}
    (h : takeOperands fmt op bs = some (i, rest)) :
    i.op = op ∧ bs = operandBytes i ++ rest ∧ i.wf fmt = true := by
  cases op <;> simp only [takeOperands, Option.map_eq_some_iff, Option.bind_eq_some_iff, Option.some.injEq,
    Prod.mk.injEq, Prod.exists] at h
  case eos | flush | query =>
    obtain ⟨rfl, rfl⟩ := h
    exact ⟨rfl, rfl, rfl⟩
  case push | setmode | typename =>
    obtain ⟨b, r, hb, rfl, rfl⟩ := h
    exact ⟨rfl, takeByte_eq_some hb, rfl⟩
  case hpack =>
    obtain ⟨ty, r1, hty, pl, r2, hpl, cs, r3, hcs, t, r4, ht, rfl, rfl⟩ := h
    refine ⟨rfl, ?_, rfl⟩
    simp [operandBytes, takeByte_eq_some hty, takeU16_eq_some hpl, takeU16_eq_some hcs, takeOctets_eq_some ht]
  case hunpack =>
    obtain ⟨x, r, hx, rfl, rfl⟩ := h
    exact ⟨rfl, takeHeader_eq_some hx, rfl⟩
  case csum | cverify =>
    obtain ⟨v, r, hv, rfl, rfl⟩ := h
    obtain ⟨hbytes, hlen⟩ := takeVar_eq_some hv
    exact ⟨rfl, hbytes, decide_eq_true hlen⟩
  case tsenc =>
    obtain ⟨I, r, hI, rfl, rfl⟩ := h
    obtain ⟨hbytes, hfmt⟩ := takeInstant_eq_some hI
    exact ⟨rfl, hbytes, decide_eq_true hfmt⟩
  case tsdec =>
    obtain ⟨t, r, ht, rfl, rfl⟩ := h
    exact ⟨rfl, takeOctets_eq_some ht, rfl⟩
  case encode =>
    obtain ⟨ty, r1, hty, v, r2, hv, I, r3, hI, rfl, rfl⟩ := h
    obtain ⟨hbytes, hlen⟩ := takeVar_eq_some hv
    obtain ⟨hinstant, hfmt⟩ := takeInstant_eq_some hI
    refine ⟨rfl, ?_, by simp [Instr.wf, lengthFits, hlen, hfmt]⟩
    simp [operandBytes, takeByte_eq_some hty, hbytes, hinstant]

/-- Bytes that decode to a command are its encoding with the rest after it (R80, R83). -/
theorem encode_of_decode {fmt : TsFormat} {bs rest : List Byte} {i : Instr} (h : decode fmt bs = .ok i rest) :
    bs = encode i ++ rest ∧ i.wf fmt = true := by
  obtain ⟨op, r, rfl, ht⟩ := decode_eq_ok h
  obtain ⟨rfl, rfl, hwf⟩ := takeOperands_eq_some ht
  exact ⟨rfl, hwf⟩

end Sys2Proof
end

section
/-! PROOFS. The invariant: where it holds, and which states it allows (spec/10_state.md R24, R25, R27). -/
namespace Sys2Proof.Machine

/-- A byte whose reserved bits 7:1 are 0 is 0x00 or 0x01 (R27). -/
theorem reservedBits_eq_zero_iff {c : Byte} : c.extractLsb' 1 7 = 0 ↔ c = 0x00 ∨ c = 0x01 := by
  revert c
  decide

/-- The first three bytes are SYNC (R71). -/
theorem take_eq_sync_iff {f : List Byte} : f.take 3 = sync ↔ ∃ r, f = 0xA3 :: 0x9D :: 0x7A :: r := by
  constructor
  · intro h
    exact ⟨f.drop 3, by rw [← List.take_append_drop 3 f, h]; rfl⟩
  · rintro ⟨r, rfl⟩
    rfl

/-- The packetSize of a frame is its bytes at offsets 4 and 5 (R25, R70). -/
theorem frameFields_ps {s0 s1 s2 ty p1 p0 : Byte} {r payload : List Byte} {hd : HeaderBytes}
    (h : frameFields (s0 :: s1 :: s2 :: ty :: p1 :: p0 :: r) = some (hd, payload)) : hd.ps = be16 p1 p0 := by
  have hbytes := frameFields_eq_some h
  simp only [HeaderBytes.bytes, bytes16, List.cons_append, List.cons.injEq] at hbytes
  obtain ⟨-, -, -, -, rfl, rfl, -⟩ := hbytes
  simp

/-- A frame of PAY, told by its fields, is one told by its bytes (R25). -/
theorem openFrame_iff {f : List Byte} :
    (∃ hd payload, frameFields f = some (hd, payload) ∧ 16 ≤ f.length ∧ f.length < hd.ps.toNat ∧ f.take 3 = sync) ↔
    ∃ ty p1 p0 r, f = 0xA3 :: 0x9D :: 0x7A :: ty :: p1 :: p0 :: r ∧ 16 ≤ f.length ∧
      f.length < p1.toNat * 256 + p0.toNat := by
  constructor
  · rintro ⟨hd, payload, hf, hmin, hlt, hsync⟩
    obtain ⟨r, rfl⟩ := take_eq_sync_iff.1 hsync
    match r, hmin with
    | ty :: p1 :: p0 :: r, hmin =>
      rw [frameFields_ps hf, be16_toNat] at hlt
      exact ⟨ty, p1, p0, r, rfl, hmin, hlt⟩
  · rintro ⟨ty, p1, p0, r, rfl, hmin, hlt⟩
    obtain ⟨hd, payload, hf, -⟩ := frameFields_of_length hmin
    rw [← be16_toNat, ← frameFields_ps hf] at hlt
    exact ⟨hd, payload, hf, hmin, hlt, rfl⟩

/-- Settles O51: the rows of R24's table, one for each tag. -/
theorem invariantIsTheTableOfStates : Obligations.InvariantIsTheTableOfStates := by
  intro s
  rw [and_comm, ← reservedBits_eq_zero_iff]
  cases ht : s.tag with
  | seek => simp [wf_seek_iff ht]
  | hdr => simp [wf_hdr_iff ht, take_eq_sync_iff]
  | pay =>
    rw [wf_pay_iff ht, openFrame_iff]
    simp

/-- Settles O50: each of the four things a step can do keeps the invariant. -/
theorem stepKeepsTheInvariant : Obligations.StepKeepsTheInvariant := fun _ _ => step_keeps_inv

/-- R24, R32: the reset state is in SEEK with an empty buffer and CTRL = 0. -/
theorem wf_reset : State.reset.wf = true := (wf_seek_iff rfl).2 ⟨Nat.zero_le 2, rfl⟩

/-- Settles O49: the reset state is one of the SEEK row. -/
theorem invariantHoldsAtReset : Obligations.InvariantHoldsAtReset := ⟨fun _ => wf_reset, wf_reset⟩

/-- Settles O9: each clause is a field of the state after reset, or a view of one. -/
theorem resetStateHoldsTheResetValues : Obligations.ResetStateHoldsTheResetValues :=
  ⟨rfl, rfl, rfl, rfl, rfl, rfl, rfl, rfl⟩

end Sys2Proof.Machine
end

section
/-! PROOFS. The running checksum that is no state (spec/10_state.md R26; spec/43_checksum.md R130). -/
namespace Sys2Proof.Machine

/-- Settles O37: the byte is appended after the checksum field, so the fold XORs it (R26). -/
theorem runningAccumulatorEqualsTheFold : Obligations.RunningAccumulatorEqualsTheFold := by
  intro f b hf
  obtain ⟨pre, c1, c0, post, hpre, rfl⟩ := cut_at_checksum hf
  rw [List.append_assoc, List.cons_append, List.cons_append, fold_split hpre, fold_split hpre, ← BitVec.setWidth_xor]
  simp [BitVec.xor_assoc]

end Sys2Proof.Machine
end

section
/-! PROOFS. What a command and a step may write (spec/10_state.md R27, R28, R33). -/
namespace Sys2Proof.Machine

/-- Settles O55: one response serves every state of the configuration. -/
theorem statelessUnitsReadOnlyTheConfiguration : Obligations.StatelessUnitsReadOnlyTheConfiguration := by
  intro i s t hp hi hc
  obtain ⟨r, hr⟩ := exec_pure_respondsOnly hp hi
  exact ⟨r, hr s rfl, hr t hc⟩

/-- A next state the answer `a` gives is `s` but for ASM_TAG, ASM_BUF and the response. -/
def WritesAssemblerOnly (s : State) (a : Answer) : Prop :=
  ∀ t, a = .next t → ∃ tag buf r, t = { s with tag := tag, buf := buf, response := some r }

section
variable {s : State}

theorem writesAssemblerOnly_next (tag : AsmTag) (buf : List Byte) (r : Response) :
    WritesAssemblerOnly s (.next { s with tag := tag, buf := buf, response := some r }) := by
  intro t h
  injection h with h
  exact ⟨tag, buf, r, h.symm⟩

theorem writesAssemblerOnly_refused (x : Refusal) : WritesAssemblerOnly s (.refused x) := by
  intro t h
  cases h

/-- Ending with any status after a write of the assembler (R14). -/
theorem writesAssemblerOnly_respond (st : Status) (r : Results) (tag : AsmTag) (buf : List Byte) :
    WritesAssemblerOnly s (respond st r (setAssembler tag buf s)) :=
  writesAssemblerOnly_next tag buf ⟨st, r⟩

theorem writesAssemblerOnly_complete (f : List Byte) (hd : HeaderBytes) (payload : List Byte) :
    WritesAssemblerOnly s (complete f hd payload s) := by
  rw [complete_eq]
  exact writesAssemblerOnly_next _ _ _

theorem writesAssemblerOnly_pushSeek (w : List Byte) : WritesAssemblerOnly s (pushSeek w s) := by
  rw [pushSeek_eq]
  exact writesAssemblerOnly_next _ _ _

theorem writesAssemblerOnly_headerDone (f : List Byte) : WritesAssemblerOnly s (headerDone f s) := by
  unfold headerDone
  split
  · exact writesAssemblerOnly_refused _
  · split_ifs
    · exact writesAssemblerOnly_respond _ _ _ _
    · exact writesAssemblerOnly_complete _ _ _
    · exact writesAssemblerOnly_respond _ _ _ _

theorem writesAssemblerOnly_pushHdr (f : List Byte) : WritesAssemblerOnly s (pushHdr f s) := by
  unfold pushHdr
  split_ifs
  · exact writesAssemblerOnly_respond _ _ _ _
  · exact writesAssemblerOnly_headerDone f

theorem writesAssemblerOnly_pushPay (f : List Byte) : WritesAssemblerOnly s (pushPay f s) := by
  unfold pushPay
  split
  · exact writesAssemblerOnly_refused _
  · split_ifs
    · exact writesAssemblerOnly_respond _ _ _ _
    · exact writesAssemblerOnly_complete _ _ _

theorem writesAssemblerOnly_execPush (b : Byte) : WritesAssemblerOnly s (execPush b s) := by
  unfold execPush
  cases s.tag with
  | seek => exact writesAssemblerOnly_pushSeek _
  | hdr => exact writesAssemblerOnly_pushHdr _
  | pay => exact writesAssemblerOnly_pushPay _

theorem writesAssemblerOnly_execEos : WritesAssemblerOnly s (execEos s) := by
  unfold execEos
  cases s.tag with
  | seek => exact writesAssemblerOnly_respond _ _ _ _
  | hdr => exact writesAssemblerOnly_respond _ _ _ _
  | pay => exact writesAssemblerOnly_respond _ _ _ _

theorem writesAssemblerOnly_of_pure {i : Instr} (hp : isPure i = true) : WritesAssemblerOnly s (exec i s) := by
  intro t h
  obtain ⟨r, rfl⟩ := exec_pure_next hp h
  exact ⟨s.tag, s.buf, r, rfl⟩

/-- Of the commands only SETMODE writes more of the machine than the assembler and the response, on any state. -/
theorem exec_writesAssemblerOnly {i : Instr} (hi : ∀ m, i ≠ .setmode m) : WritesAssemblerOnly s (exec i s) := by
  cases i with
  | push b => exact writesAssemblerOnly_execPush b
  | eos => exact writesAssemblerOnly_execEos
  | flush => exact writesAssemblerOnly_respond _ _ _ _
  | setmode m => exact absurd rfl (hi m)
  | query => exact writesAssemblerOnly_respond _ _ s.tag s.buf
  | hpack | hunpack | csum | cverify | tsenc | tsdec | typename | encode => exact writesAssemblerOnly_of_pure rfl

end

/-- SETMODE of 0 or 1 writes that byte to CTRL, and of any other byte writes the response only (R178). -/
theorem execSetmode_next {m : Byte} {s t : State} (h : execSetmode m s = .next t) :
    ∃ r, (m.toNat ≤ 1 ∧ t = { s with ctrl := m, response := some r }) ∨ t = { s with response := some r } := by
  unfold execSetmode at h
  split_ifs at h with hm
  · rw [ok_eq] at h
    injection h with h
    obtain rfl | rfl := reservedBits_eq_zero_iff.1 hm
    · exact ⟨_, .inl ⟨by decide, h.symm⟩⟩
    · exact ⟨_, .inl ⟨by decide, h.symm⟩⟩
  · rw [raise_eq] at h
    injection h with h
    exact ⟨_, .inr h.symm⟩

/-- A command leaves CFG, and CTRL unless it is SETMODE of 0 or 1 (R27, R28). -/
theorem exec_cfg_ctrl {i : Instr} {s t : State} (h : exec i s = .next t) :
    t.cfg = s.cfg ∧ (t.ctrl ≠ s.ctrl → ∃ m, i = .setmode m ∧ m.toNat ≤ 1 ∧ t.ctrl = m) := by
  by_cases hi : ∃ m, i = .setmode m
  · obtain ⟨m, rfl⟩ := hi
    obtain ⟨r, ⟨hm, rfl⟩ | rfl⟩ := execSetmode_next h
    · exact ⟨rfl, fun _ => ⟨m, rfl, hm, rfl⟩⟩
    · exact ⟨rfl, fun hne => absurd rfl hne⟩
  · obtain ⟨tag, buf, r, rfl⟩ := exec_writesAssemblerOnly (not_exists.1 hi) t h
    exact ⟨rfl, fun hne => absurd rfl hne⟩

/-- A performed command leaves CFG, and CTRL unless its bytes are `04 m` (R83, R84). -/
theorem performCommand_cfg_ctrl {bytes : List Byte} {s t : State} (h : performCommand bytes s = .next t) :
    t.cfg = s.cfg ∧ (t.ctrl ≠ s.ctrl → ∃ m, bytes = [0x04, m]) := by
  obtain ⟨-, -, -, ⟨i, hdecode, hexec⟩ | ⟨-, -, -, rfl⟩⟩ := performCommand_cases h
  · obtain ⟨hcfg, hctrl⟩ := exec_cfg_ctrl hexec
    refine ⟨hcfg, fun hne => ?_⟩
    obtain ⟨m, rfl, -, -⟩ := hctrl hne
    exact ⟨m, (encode_of_decode hdecode).1⟩
  · exact ⟨rfl, fun hne => absurd rfl hne⟩

/-- Settles O58: of the commands by what each writes, of the steps by what each of the host's moves does. -/
theorem onlySetmodeAndResetWriteCtrl : Obligations.OnlySetmodeAndResetWriteCtrl := by
  refine ⟨fun i s t h => (exec_cfg_ctrl h).2, fun s t h => ?_⟩
  obtain ⟨-, rfl⟩ | ⟨rest, hhost, rfl⟩ | ⟨rest, -, rfl⟩ | ⟨bytes, rest, hhost, hp⟩ := step_cases h
  · exact ⟨rfl, fun hne => absurd rfl hne⟩
  · exact ⟨rfl, fun _ => ⟨rest, .inl hhost⟩⟩
  · exact ⟨rfl, fun hne => absurd rfl hne⟩
  · obtain ⟨hcfg, hctrl⟩ := performCommand_cfg_ctrl hp
    refine ⟨hcfg, fun hne => ?_⟩
    obtain ⟨m, rfl⟩ := hctrl hne
    exact ⟨rest, .inr ⟨m, hhost⟩⟩

end Sys2Proof.Machine
end

section
/-! PROOFS. Commands of the stateless units among other commands (spec/20_memory.md R60, R61; spec/10_state.md R33). -/
namespace Sys2Proof.Machine

/-- Two machines of one configuration and one block state perform the same commands alike, the second without those of the
stateless units: only the host's side of the machine may differ (R61). -/
theorem perform_without_pure (is : List Instr) {s v : State} (hs : s.wf = true)
    (his : ∀ i ∈ is, i.wf s.cfg.tsFormat = true) (hc : v.cfg = s.cfg) (hb : v.toBlockState = s.toBlockState) :
    ∃ t rs u, perform is s = some (t, rs) ∧ rs.map Prod.fst = is ∧
      perform (is.filter fun i => !isPure i) v = some (u, rs.filter fun x => !isPure x.1) ∧
      u.toBlockState = t.toBlockState := by
  induction is generalizing s v with
  | nil => exact ⟨s, [], v, rfl, rfl, rfl, hb⟩
  | cons i is ih =>
    obtain ⟨hi, hrest⟩ := List.forall_mem_cons.1 his
    cases hp : isPure i with
    | true =>
      -- only the full sequence moves, and its block state stays
      obtain ⟨r, hr⟩ := exec_pure_respondsOnly hp hi
      have hwf : ({ s with response := some r } : State).wf = true := by rw [wf_withResponse, hs]
      obtain ⟨t, rs, u, hfull, hfst, hleft, hblock⟩ := ih hwf hrest hc hb
      refine ⟨t, (i, r) :: rs, u, ?_, by rw [List.map_cons, hfst], ?_, hblock⟩
      · rw [perform_cons (hr s rfl) rfl, hfull, Option.map_some]
      · simpa [hp] using hleft
    | false =>
      -- both sequences move, to one block state and with one response
      obtain ⟨b, r, hwf, hanswer⟩ := answersOnce_exec hi hs
      rw [← wf_withResponse _ (some r)] at hwf
      obtain ⟨t, rs, u, hfull, hfst, hleft, hblock⟩ :=
        ih (v := { v with toBlockState := b, response := some r }) hwf hrest hc rfl
      refine ⟨t, (i, r) :: rs, u, ?_, by rw [List.map_cons, hfst], ?_, hblock⟩
      · rw [perform_cons (hanswer s rfl rfl) rfl, hfull, Option.map_some]
      · rw [List.filter_cons_of_pos (by simp [hp]), List.filter_cons_of_pos (by simp [hp]),
          perform_cons (hanswer v hc hb) rfl, hleft, Option.map_some]

/-- Settles O46: both runs start on the machine at hand, and equal block states agree in each register. -/
theorem pureCommandsBetweenPushesChangeNothing : Obligations.PureCommandsBetweenPushesChangeNothing := by
  intro is s hs his
  obtain ⟨t, rs, u, hfull, hfst, hleft, hblock⟩ := perform_without_pure is hs his rfl rfl
  exact ⟨t, rs, u, hfull, hfst, hleft, by rw [hblock], by rw [hblock], by rw [hblock]⟩

end Sys2Proof.Machine
end

section
/-! PROOFS. The opcodes outside the map (spec/30_encoding.md R84). -/
namespace Sys2Proof

/-- A byte that is the opcode of no row is not in the map (R84). -/
theorem opOf_eq_none {o : Byte} (h : ∀ op : Op, o ≠ op.code) : opOf o = none :=
  Option.eq_none_iff_forall_ne_some.2 fun op hop => h op (opOf_eq_some hop)

/-- The decoder reads an opcode outside the map alone: it has no operands (R84). -/
theorem decode_undefined {o : Byte} (h : opOf o = none) (fmt : TsFormat) (bs : List Byte) :
    decode fmt (o :: bs) = .undefinedOpcode o bs := by
  simp only [decode, h]

end Sys2Proof
end

section
/-! PROOFS. The statements of the encoding: the round trips of decoder and encoder, the worked encodings, and the opcodes
outside the map (spec/30_encoding.md R80 to R84, R91). -/
namespace Sys2Proof.Machine

/-- Settles O1: each reader takes the operand its writer wrote and leaves the bytes after it. -/
theorem decodeReadsWhatEncodeWrites : Obligations.DecodeReadsWhatEncodeWrites :=
  fun _ _ rest hi => decode_encode_append hi rest

/-- Settles O2: what each reader took stood there as its writer writes it. -/
theorem decodedBytesAreTheEncoding : Obligations.DecodedBytesAreTheEncoding :=
  fun _ _ _ _ h => encode_of_decode h

/-- Settles O3: each string is the encoding of its command (R91), which decodes to it. -/
theorem workedEncodingsDecode : Obligations.WorkedEncodingsDecode :=
  ⟨decode_encode (i := .push 0xA3) rfl, decode_encode (i := .eos) rfl, decode_encode (i := pseudoStrict) rfl,
    decode_encode (i := .query) rfl, decode_encode (i := .typename 7) rfl,
    decode_encode (i := .tsdec ⟨0, 0, 0, 0, 0, 0, 0, 0⟩) rfl,
    decode_encode (i := .csum [0xA3, 0x9D, 0x7A, 0x01, 0x00, 0x10, 0, 0, 0, 0, 0, 0, 0, 0, 0, 0]) rfl,
    decode_encode (i := .encode 7 [] (.ntp 0 0)) rfl⟩

/-- On a state that accepts a command, an undefined opcode writes the response only (R84). -/
theorem performCommand_undefined {o : Byte} (h : opOf o = none) (bs : List Byte) {s : State} (hw : s.wasReset = true)
    (hr : s.response = none) (hf : s.wf = true) :
    performCommand (o :: bs) s = .next { s with response := some ⟨.illegalCommand, .none⟩ } := by
  rw [performCommand_ready _ hw hr hf, decode_undefined h, illegalCommand_eq]

/-- Settles O7: the opcode of each row lies outside every range of R84. -/
theorem undefinedOpcodesRespondIllegalCommand : Obligations.UndefinedOpcodesRespondIllegalCommand := by
  intro s o rest ho hh hw hr hf
  have hcode : ∀ op : Op, o ≠ op.code := by
    rintro op rfl
    revert ho
    cases op <;> decide
  rw [step_command hh]
  exact performCommand_undefined (opOf_eq_none hcode) [] hw hr (by rw [wf_withHost, hf])

end Sys2Proof.Machine
end

section
/-! PROOFS. The registry: its codes outside 1 to 9, and TYPENAME's two answers (spec/41_registry.md R100 to R102). -/
namespace Sys2Proof.Machine

/-- The codes the registry does not know are 0 and 10 to 255 (R102). -/
theorem known_eq_false_iff (code : Byte) : known code = false ↔ code = 0 ∨ 10 ≤ code.toNat := by
  have hzero : code = 0 ↔ code.toNat = 0 := BitVec.toNat_inj.symm
  rw [← Bool.not_eq_true, known_iff, hzero]
  omega

/-- A code the registry does not know is Unknown (R100). -/
theorem nameOf_of_not_known {code : Byte} (h : known code = false) : nameOf code = .unknown := by
  revert code
  decide

/-- A known code is answered with itself as the name index (R101). -/
theorem execTypename_of_known {code : Byte} (h : known code = true) (s : State) :
    execTypename code s = .next { s with response := some ⟨.ok, .typeName true code⟩ } := by
  rw [execTypename, if_pos h, index_nameOf code h, ok, respond_eq]

/-- A code that is not known is answered OK all the same, with known = 0 and index 0 (R101). -/
theorem execTypename_of_not_known {code : Byte} (h : known code = false) (s : State) :
    execTypename code s = .next { s with response := some ⟨.ok, .typeName false 0⟩ } := by
  rw [execTypename, if_neg (Bool.eq_false_iff.1 h), ok, respond_eq]

/-- Settles O23: the two ranges are the codes the registry knows and those it does not. -/
theorem typenameLooksUpTheCode : Obligations.TypenameLooksUpTheCode :=
  fun code s =>
    ⟨rfl, fun h => execTypename_of_known ((known_iff code).2 h) s,
      fun h => execTypename_of_not_known ((known_eq_false_iff code).2 h) s⟩

/-- Settles O24: the table row by row, and Unknown for every code that is not known. -/
theorem registryPairsCodesWithNames : Obligations.RegistryPairsCodesWithNames := by
  refine ⟨rfl, fun code h => index_nameOf code ((known_iff code).2 h), fun code h => ?_⟩
  have hunknown : nameOf code = .unknown := nameOf_of_not_known ((known_eq_false_iff code).2 h)
  rw [hunknown]
  exact ⟨rfl, rfl⟩

end Sys2Proof.Machine
end

section
/-! PROOFS. The timestamp codec as arithmetic: a field's eight bytes as numbers, which field the encoder gives an instant, and
the responses of TSENC and TSDEC (spec/42_timestamp.md R112 to R116). -/
namespace Sys2Proof

/-- The first four bytes of a field as a number, most significant first (R114). -/
theorem hi_toNat (t : Octets) :
    t.hi.toNat = t.b0.toNat * 2 ^ 24 + t.b1.toNat * 2 ^ 16 + t.b2.toNat * 2 ^ 8 + t.b3.toNat := be32_toNat ..

/-- The last four bytes of a field as a number, most significant first (R114). -/
theorem lo_toNat (t : Octets) :
    t.lo.toNat = t.b4.toNat * 2 ^ 24 + t.b5.toNat * 2 ^ 16 + t.b6.toNat * 2 ^ 8 + t.b7.toNat := be32_toNat ..

/-- All eight bytes of a field as a number, most significant first (R115). -/
theorem be64_toNat_bytes (t : Octets) :
    (be64 t).toNat =
      t.b0.toNat * 2 ^ 56 + t.b1.toNat * 2 ^ 48 + t.b2.toNat * 2 ^ 40 + t.b3.toNat * 2 ^ 32 + t.b4.toNat * 2 ^ 24 +
        t.b5.toNat * 2 ^ 16 + t.b6.toNat * 2 ^ 8 + t.b7.toNat := by
  rw [be64_toNat, hi_toNat, lo_toNat]
  omega

/-- A field is fixed by its two words. -/
theorem octets_ext_words {t u : Octets} (hhi : t.hi = u.hi) (hlo : t.lo = u.lo) : t = u := by
  rw [← ofWords_hi_lo t, ← ofWords_hi_lo u, hhi, hlo]

end Sys2Proof

namespace Sys2Proof.Machine

/-- The seconds TSDEC gives fit an s64 whatever the field holds: none wraps (R114). -/
theorem toInt_unixSeconds (w : U32) :
    (BitVec.ofInt 64 ((w.toNat : Int) - epochOffset)).toInt = (w.toNat : Int) - 2208988800 := by
  have hw := w.isLt
  exact BitVec.toInt_ofInt_eq_self (by decide) (by unfold epochOffset; omega) (by unfold epochOffset; omega)

/-- The instant TSDEC gives with NTP, by its two numbers (R114). -/
theorem decodeField_ntp_eq_iff {t : Octets} {sec : S64} {frac : U32} :
    decodeField .ntp t = .ntp sec frac ↔ sec.toInt = (t.hi.toNat : Int) - 2208988800 ∧ frac = t.lo := by
  rw [decodeField, Instant.ntp.injEq, ← BitVec.toInt_inj, toInt_unixSeconds, eq_comm, eq_comm (a := t.lo)]

/-- A time before 1900 or after the last second a u32 holds has no NTP field (R112). -/
theorem encodeNtp_of_outside {sec : S64} (h : sec.toInt < -2208988800 ∨ 2085978495 < sec.toInt) (frac : U32) :
    encodeNtp sec frac = .outOfRange := by
  have hbad : sec.toInt + epochOffset < 0 ∨ sec.toInt + epochOffset > 4294967295 := by
    unfold epochOffset
    omega
  simp only [encodeNtp, hbad, if_true]

/-- Every other time has one, whose first word counts the seconds from 1900 and whose second is the fraction (R112). -/
theorem encodeNtp_of_inside {sec : S64} (hmin : -2208988800 ≤ sec.toInt) (hmax : sec.toInt ≤ 2085978495) (frac : U32) :
    ∃ t, encodeNtp sec frac = .field t ∧ (t.hi.toNat : Int) = sec.toInt + 2208988800 ∧ t.lo = frac := by
  have hgood : ¬(sec.toInt + epochOffset < 0 ∨ sec.toInt + epochOffset > 4294967295) := by
    unfold epochOffset
    omega
  refine ⟨Octets.ofWords (BitVec.ofInt 32 (sec.toInt + epochOffset)) frac, ?_, ?_, lo_ofWords ..⟩
  · simp only [encodeNtp, hgood, if_false]
  · rw [hi_ofWords, BitVec.toNat_ofInt]
    unfold epochOffset
    omega

/-- The NTP encoder gives exactly the field whose words are the seconds since 1900 and the fraction (R112). -/
theorem encodeNtp_eq_field_iff {sec : S64} {frac : U32} {t : Octets} :
    encodeNtp sec frac = .field t ↔ sec.toInt = (t.hi.toNat : Int) - 2208988800 ∧ frac = t.lo := by
  by_cases h : sec.toInt < -2208988800 ∨ 2085978495 < sec.toInt
  · have ht := t.hi.isLt
    rw [encodeNtp_of_outside h]
    exact ⟨nofun, fun ⟨hsec, _⟩ => by omega⟩
  · obtain ⟨u, hu, hhi, rfl⟩ := encodeNtp_of_inside (sec := sec) (by omega) (by omega) frac
    rw [hu, Encoded.field.injEq]
    constructor
    · rintro rfl
      exact ⟨by omega, rfl⟩
    · rintro ⟨hsec, hlo⟩
      exact octets_ext_words (BitVec.eq_of_toNat_eq (by omega)) hlo

/-- The encoder and the decoder of timestamps are inverse to each other, in both formats (R116). -/
theorem encodeInstant_eq_field_iff {fmt : TsFormat} {I : Instant} {t : Octets} :
    encodeInstant fmt I = .field t ↔ decodeField fmt t = I := by
  cases fmt with
  | ntp =>
    cases I with
    | ntp sec frac => exact encodeNtp_eq_field_iff.trans decodeField_ntp_eq_iff.symm
    | f64 d => exact ⟨nofun, nofun⟩
  | f64 =>
    cases I with
    | ntp sec frac => exact ⟨nofun, nofun⟩
    | f64 d =>
      simp only [encodeInstant, decodeField, Encoded.field.injEq, Instant.f64.injEq]
      constructor
      · rintro rfl
        exact be64_ofU64 d
      · rintro rfl
        exact ofU64_be64 t

/-- TSENC responds OK with a field exactly when the encoder gives that field (R112, R113). -/
theorem exec_tsenc_field_iff {I : Instant} {s : State} {t : Octets} :
    exec (.tsenc I) s = .next { s with response := some ⟨.ok, .field t⟩ } ↔
      encodeInstant s.cfg.tsFormat I = .field t := by
  simp only [exec, execTsenc]
  cases encodeInstant s.cfg.tsFormat I with
  | field u => simp [ok_eq]
  | outOfRange => simp [raise_eq]
  | otherFormat => simp

/-- TSENC of an instant the encoder finds out of range responds TimestampOutOfRange and writes nothing else (R112). -/
theorem exec_tsenc_outOfRange {I : Instant} {s : State} (h : encodeInstant s.cfg.tsFormat I = .outOfRange) :
    exec (.tsenc I) s = .next { s with response := some ⟨.timestampOutOfRange, .none⟩ } := by
  simp only [exec, execTsenc, h, raise_eq]

/-- TSDEC responds OK with what the decoder makes of the field, and writes nothing else (R114, R115). -/
theorem exec_tsdec (t : Octets) (s : State) :
    exec (.tsdec t) s = .next { s with response := some ⟨.ok, .instant (decodeField s.cfg.tsFormat t)⟩ } := rfl

/-- Settles O25: the encoder's two ranges, its words read as bytes. -/
theorem tsencEncodesNtp : Obligations.TsencEncodesNtp := by
  intro sec frac s hs
  refine ⟨rfl, fun hout => exec_tsenc_outOfRange ?_, fun ⟨hmin, hmax⟩ => ?_⟩
  · rw [hs]
    exact encodeNtp_of_outside hout frac
  · obtain ⟨t, ht, hhi, hlo⟩ := encodeNtp_of_inside hmin hmax frac
    refine ⟨t, exec_tsenc_field_iff.2 (by rw [hs]; exact ht), ?_, ?_⟩
    · rw [← hhi, hi_toNat]
      push_cast
      rfl
    · rw [← hlo, lo_toNat]

/-- Settles O26: the field is `bytes64` of the pattern, whose value is the pattern again. -/
theorem tsencCarriesF64 : Obligations.TsencCarriesF64 := by
  intro d s hs
  refine ⟨rfl, Octets.ofU64 d, exec_tsenc_field_iff.2 (by rw [hs]; rfl), ?_⟩
  rw [← be64_toNat_bytes, be64_ofU64]

/-- Settles O27: the two numbers of the decoded instant, the first a u32 less the epoch offset. -/
theorem tsdecDecodesNtp : Obligations.TsdecDecodesNtp := by
  intro t s hs
  have hsec := toInt_unixSeconds t.hi
  have hlt := t.hi.isLt
  refine ⟨rfl, BitVec.ofInt 64 ((t.hi.toNat : Int) - epochOffset), t.lo, ?_, ?_, lo_toNat t, by omega, by omega⟩
  · rw [exec_tsdec, hs, decodeField]
  · rw [hsec, hi_toNat]
    push_cast
    rfl

/-- Settles O28: the decoded pattern is the big-endian value of the field. -/
theorem tsdecCarriesF64 : Obligations.TsdecCarriesF64 := by
  intro t s hs
  refine ⟨rfl, be64 t, ?_, be64_toNat_bytes t⟩
  rw [exec_tsdec, hs, decodeField]

/-- Settles O29: both laws are the two directions of `encodeInstant_eq_field_iff`. -/
theorem timestampsRoundTrip : Obligations.TimestampsRoundTrip := by
  refine ⟨fun t s => ?_, fun I t s h => ?_⟩
  · exact ⟨_, exec_tsdec t s, exec_tsenc_field_iff.2 (encodeInstant_eq_field_iff.2 rfl)⟩
  · rw [exec_tsdec, encodeInstant_eq_field_iff.1 (exec_tsenc_field_iff.1 h)]

end Sys2Proof.Machine
end

section
/-! PROOFS. The host's conversion of a time finer than 2^-32 s (spec/42_timestamp.md R117). -/
namespace Sys2Proof.Machine

/-- The units of 2^-32 s in a fraction of a second are a u32 (R117). -/
theorem floor_fract_mem_u32 (time : Rat) :
    0 ≤ ⌊Int.fract time * 4294967296⌋ ∧ ⌊Int.fract time * 4294967296⌋ < 4294967296 := by
  have hmin := Int.fract_nonneg time
  have hmax := Int.fract_lt_one time
  refine ⟨Int.floor_nonneg.2 (by linarith), Int.floor_lt.2 ?_⟩
  push_cast
  linarith

/-- A time whose floor is an s64 has an instant, made of the floors of its seconds and of its fraction (R117). -/
theorem instantOfTime_eq_some {time : Rat} (hmin : -9223372036854775808 ≤ ⌊time⌋) (hmax : ⌊time⌋ < 9223372036854775808) :
    ∃ sec frac, instantOfTime time = some (.ntp sec frac) ∧ sec.toInt = ⌊time⌋ ∧
      (frac.toNat : Int) = ⌊Int.fract time * 4294967296⌋ := by
  obtain ⟨hfmin, hfmax⟩ := floor_fract_mem_u32 time
  refine ⟨BitVec.ofInt 64 ⌊time⌋, BitVec.ofInt 32 ⌊Int.fract time * 4294967296⌋, if_pos ⟨hmin, hmax⟩, ?_, ?_⟩
  · exact BitVec.toInt_ofInt_eq_self (by decide) hmin hmax
  · rw [BitVec.toNat_ofInt]
    omega

/-- Settles O30: each floor is at most what it is taken of and less than 1 below it. -/
theorem finerTimesAreFloored : Obligations.FinerTimesAreFloored := by
  intro time hmin hmax
  have hsmin : -2208988800 ≤ ⌊time⌋ := Int.le_floor.2 (by exact_mod_cast hmin)
  have hsmax : ⌊time⌋ < 2085978496 := Int.floor_lt.2 (by exact_mod_cast hmax)
  obtain ⟨sec, frac, hI, hsec, hfrac⟩ := instantOfTime_eq_some (time := time) (by omega) (by omega)
  obtain ⟨t, ht, -, -⟩ := encodeNtp_of_inside (sec := sec) (by omega) (by omega) frac
  have htime : (⌊time⌋ : Rat) + Int.fract time = time := Int.floor_add_fract time
  have hle := Int.floor_le (Int.fract time * 4294967296)
  have hlt := Int.lt_floor_add_one (Int.fract time * 4294967296)
  rw [← hfrac, Int.cast_natCast] at hle hlt
  refine ⟨_, _, t, hI, rfl, ?_, ?_, ht⟩
  · rw [hsec]
    linarith
  · rw [hsec]
    linarith

end Sys2Proof.Machine
end

section
/-! PROOFS. The XOR of a byte sequence and the fold under reorderings, insertions and changed bits, and the fold offset by
offset (spec/43_checksum.md R130, R134). -/
namespace Sys2Proof.Machine

theorem xorAll_perm {f g : List Byte} (h : f.Perm g) : xorAll f = xorAll g := h.foldl_eq 0

/-- A byte anywhere in a sequence counts as if it stood at its front. -/
theorem xorAll_middle (p q : List Byte) (a : Byte) : xorAll (p ++ a :: q) = a ^^^ xorAll (p ++ q) := by
  rw [xorAll_perm List.perm_middle, xorAll_cons]

/-- Changing bits of one byte changes the same bits of the XOR of all. -/
theorem xorAll_set_xor {f : List Byte} {i : Nat} (hi : i < f.length) (x : Byte) :
    xorAll (f.set i (f.getD i 0 ^^^ x)) = xorAll f ^^^ x := by
  obtain ⟨p, q, hf, -, hset⟩ := List.exists_of_set (a' := f[i] ^^^ x) hi
  have hxor : xorAll f = f[i] ^^^ xorAll (p ++ q) := by rw [← xorAll_middle, ← hf]
  rw [List.getD_eq_getElem _ _ hi, hset, xorAll_middle, hxor, BitVec.xor_assoc, BitVec.xor_assoc, BitVec.xor_comm x]

/-- Beyond the checksum field the fold depends on the XOR of the bytes only. -/
theorem fold_congr_post {pre post post' : List Byte} (hpre : pre.length = 6) (h : xorAll post = xorAll post')
    (c1 c0 : Byte) : fold (pre ++ c1 :: c0 :: post) = fold (pre ++ c1 :: c0 :: post') := by
  rw [fold_split hpre, fold_split hpre, h]

/-- Outside the checksum field the fold depends on the bytes up to their order (R134). -/
theorem fold_perm {pre post pre' post' : List Byte} (hpre : pre.length = 6) (hpre' : pre'.length = 6)
    (h : (pre ++ post).Perm (pre' ++ post')) (c1 c0 : Byte) :
    fold (pre ++ c1 :: c0 :: post) = fold (pre' ++ c1 :: c0 :: post') := by
  rw [fold_split hpre, fold_split hpre', ← xorAll_append, ← xorAll_append, xorAll_perm h]

/-- The fold of bytes is a byte, zero-extended (R130). -/
theorem fold_toNat_le (f : List Byte) : (fold f).toNat ≤ 0x00FF := by
  have := (xorAll (f.take 6 ++ f.drop 8)).isLt
  rw [fold, BitVec.toNat_setWidth]
  omega

/-- The offsets other than 6 and 7 are the first six and those from 8 on. -/
theorem filter_range_skip (n : Nat) :
    (List.range n).filter (fun i => decide (i ≠ 6 ∧ i ≠ 7)) = (List.range n).take 6 ++ (List.range n).drop 8 := by
  by_cases hn : n < 8
  · revert n
    decide
  · obtain ⟨m, rfl⟩ := Nat.exists_eq_add_of_le (Nat.le_of_not_lt hn)
    have hlow : (List.range 8).filter (fun i => decide (i ≠ 6 ∧ i ≠ 7)) = List.range 6 := by decide
    have hhigh : ((List.range m).map (8 + ·)).filter (fun i => decide (i ≠ 6 ∧ i ≠ 7)) = (List.range m).map (8 + ·) := by
      simp only [List.filter_eq_self, List.forall_mem_map, decide_eq_true_eq]
      omega
    rw [List.range_add, List.filter_append, hlow, hhigh]
    simp [List.take_append, List.take_range]

/-- A byte sequence is its bytes read offset by offset. -/
theorem map_getD_range (f : List Byte) : (List.range f.length).map (fun i => f.getD i 0) = f :=
  List.ext_getElem (by simp) fun i _ hi => by simp [hi]

/-- Settles O31: the bytes at the offsets other than 6 and 7 are the first six and those from offset 8 on. -/
theorem foldSkipsOffsetsSixAndSeven : Obligations.FoldSkipsOffsetsSixAndSeven := by
  intro f
  refine ⟨?_, fold_toNat_le f⟩
  rw [filter_range_skip, List.map_append, List.map_take, List.map_drop, map_getD_range]
  rfl

/-- Settles O35: a byte beyond the checksum field counts wherever it stands, so a zero byte adds nothing, and two equal
bytes or two equal changes cancel. -/
theorem checksumIsWeak : Obligations.ChecksumIsWeak := by
  intro pre p q r c1 c0 a b x hpre
  have htwo (u v : Byte) : xorAll (p ++ u :: (q ++ v :: r)) = u ^^^ (v ^^^ xorAll (p ++ (q ++ r))) := by
    rw [xorAll_middle, ← List.append_assoc, xorAll_middle, List.append_assoc]
  refine ⟨fold_congr_post hpre ?_ c1 c0, fold_congr_post hpre ?_ c1 c0, fold_congr_post hpre ?_ c1 c0,
    fun pre' post post' hpre' h => fold_perm hpre hpre' h c1 c0⟩
  · rw [xorAll_middle, zero_xor]
  · rw [htwo, xor_cancel_left]
  · rw [htwo, htwo, BitVec.xor_comm b, BitVec.xor_assoc, BitVec.xor_assoc, xor_cancel_left]

end Sys2Proof.Machine
end

section
/-! PROOFS. The responses of CSUM and CVERIFY, and what a frame that verifies is (spec/43_checksum.md R131 to R135). -/
namespace Sys2Proof.Machine

theorem execCsum_of_short {v : List Byte} (h : v.length < 16) (s : State) :
    execCsum v s = .next { s with response := some ⟨.badLength, .none⟩ } := by
  rw [execCsum, hdrLen, if_pos h, raise_eq]

theorem execCsum_of_frame {v : List Byte} (h : 16 ≤ v.length) (s : State) :
    execCsum v s = .next { s with response := some ⟨.ok, .checksum (fold v)⟩ } := by
  rw [execCsum, hdrLen, if_neg (Nat.not_lt.2 h), ok_eq]

theorem execCverify_of_short {v : List Byte} (h : v.length < 16) (s : State) :
    execCverify v s = .next { s with response := some ⟨.badLength, .none⟩ } := by
  rw [execCverify, hdrLen, if_pos h, raise_eq]

theorem execCverify_of_stored {v : List Byte} {stored : U16} (h : 16 ≤ v.length) (hst : storedChecksum v = some stored)
    (s : State) :
    execCverify v s =
      .next { s with response := some ⟨.ok, .verdict (decide (stored = fold v)) stored (fold v)⟩ } := by
  rw [execCverify, hdrLen, if_neg (Nat.not_lt.2 h), hst]
  rfl

/-- The stored checksum is the big-endian word at offsets 6 and 7 (R133). -/
theorem storedChecksum_of_getElem? {f : List Byte} {c1 c0 : Byte} (h1 : f[6]? = some c1) (h0 : f[7]? = some c0) :
    storedChecksum f = some (be16 c1 c0) := by
  obtain ⟨hlen, rfl⟩ := List.getElem?_eq_some_iff.1 h0
  obtain ⟨hlen', rfl⟩ := List.getElem?_eq_some_iff.1 h1
  rw [storedChecksum, List.drop_eq_getElem_cons hlen', List.drop_eq_getElem_cons hlen]
  rfl

/-- A frame has a stored checksum (R133). -/
theorem exists_storedChecksum {f : List Byte} (h : 8 ≤ f.length) : ∃ stored, storedChecksum f = some stored :=
  ⟨_, storedChecksum_of_getElem? (List.getElem?_eq_getElem (by omega)) (List.getElem?_eq_getElem (by omega))⟩

/-- A byte sequence that verifies is a frame that stores its own fold (R132, R133). -/
theorem storedChecksum_of_verified {f : List Byte} {s : State} {st c : U16}
    (h : execCverify f s = .next { s with response := some ⟨.ok, .verdict true st c⟩ }) :
    16 ≤ f.length ∧ storedChecksum f = some (fold f) := by
  by_cases hlen : 16 ≤ f.length
  · obtain ⟨stored, hst⟩ := exists_storedChecksum (f := f) (by omega)
    rw [execCverify_of_stored hlen hst] at h
    obtain ⟨rfl, -, -⟩ : stored = fold f ∧ stored = st ∧ fold f = c := by simpa using h
    exact ⟨hlen, hst⟩
  · rw [execCverify_of_short (Nat.not_le.1 hlen)] at h
    simp at h

/-- The stored field equals a zero-extended byte when its first byte is 0 and its second that byte (R132). -/
theorem be16_eq_setWidth_iff {c1 c0 x : Byte} : be16 c1 c0 = x.setWidth 16 ↔ c1 = 0 ∧ c0 = x := by
  have h0 := c0.isLt
  have hx := x.isLt
  rw [← BitVec.toNat_inj, ← BitVec.toNat_inj, ← BitVec.toNat_inj, be16_toNat, BitVec.toNat_setWidth]
  simp only [BitVec.ofNat_eq_ofNat, BitVec.toNat_ofNat]
  omega

/-- A frame that stores its own fold XORs to 0: its second checksum byte is the XOR of the bytes outside the field (R135). -/
theorem xorAll_eq_zero_of_stored {f : List Byte} (hlen : 8 ≤ f.length) (h : storedChecksum f = some (fold f)) :
    xorAll f = 0 := by
  obtain ⟨pre, c1, c0, post, hpre, rfl⟩ := cut_at_checksum hlen
  rw [storedChecksum_split hpre, fold_split hpre, Option.some.injEq, be16_eq_setWidth_iff] at h
  obtain ⟨rfl, rfl⟩ := h
  rw [xorAll_middle, xorAll_middle, xorAll_append, zero_xor, LawfulXor.xor_self]

theorem twoPow_byte_ne_zero {k : Nat} (hk : k < 8) : BitVec.twoPow 8 k ≠ 0 := by
  revert k
  decide

/-- Settles O34: the XOR of all bytes of the changed frame is the changed bit, and of one that verifies it is 0. -/
theorem singleBitErrorsAreDetected : Obligations.SingleBitErrorsAreDetected := by
  intro f i k s st c hi hk h
  obtain ⟨hlen, hst⟩ := storedChecksum_of_verified h
  have hxor : xorAll (f.set i (f.getD i 0 ^^^ BitVec.twoPow 8 k)) = BitVec.twoPow 8 k := by
    rw [xorAll_set_xor hi, xorAll_eq_zero_of_stored (by omega) hst, zero_xor]
  have hlen' : 16 ≤ (f.set i (f.getD i 0 ^^^ BitVec.twoPow 8 k)).length := by rwa [List.length_set]
  generalize f.set i (f.getD i 0 ^^^ BitVec.twoPow 8 k) = g at hxor hlen' ⊢
  obtain ⟨stored, hg⟩ := exists_storedChecksum (f := g) (by omega)
  have hne : stored ≠ fold g := by
    rintro rfl
    exact twoPow_byte_ne_zero hk (hxor ▸ xorAll_eq_zero_of_stored (by omega) hg)
  refine ⟨stored, fold g, (execCverify_of_stored hlen' hg s).trans ?_⟩
  rw [decide_eq_false hne]

/-- Settles O36: what verifies stores its own fold. -/
theorem verifiedFramesXorToZero : Obligations.VerifiedFramesXorToZero := by
  intro f s st c h
  obtain ⟨hlen, hst⟩ := storedChecksum_of_verified h
  exact xorAll_eq_zero_of_stored (by omega) hst

/-- Settles O32: the two lengths of R131. -/
theorem csumAnswersTheFold : Obligations.CsumAnswersTheFold :=
  fun _ s => ⟨rfl, fun h => execCsum_of_short h s, fun h => execCsum_of_frame h s⟩

/-- Settles O33: the two lengths of R132, the stored word read at its offsets. -/
theorem cverifyComparesTheStoredChecksum : Obligations.CverifyComparesTheStoredChecksum :=
  fun _ s => ⟨rfl, fun h => execCverify_of_short h s,
    fun _ _ h h1 h0 => execCverify_of_stored h (storedChecksum_of_getElem? h1 h0) s⟩

end Sys2Proof.Machine
end

section
/-! PROOFS. HPACK and HUNPACK: packetSize from a payload length and back, the two answers of each command, and the
identity of packing and unpacking (spec/44_header.md R151 to R153). -/
namespace Sys2Proof.Machine

/-- The packetSize of a payload that fits does not wrap (R9, R151). -/
theorem packetSize_toNat_of_fits {n : Nat} (h : n ≤ 65519) : (BitVec.ofNat 16 (hdrLen + n)).toNat = 16 + n := by
  rw [BitVec.toNat_ofNat, hdrLen]
  omega

/-- The payload length of a packetSize that counts the header is what the header leaves of it (R153). -/
theorem payloadLength_toNat {ps : U16} (h : 16 ≤ ps.toNat) : (ps - 16).toNat = ps.toNat - 16 :=
  BitVec.toNat_sub_of_le (BitVec.le_def.2 h)

/-- That payload length gives the packetSize back (R153). -/
theorem packetSize_payloadLength {ps : U16} (h : 16 ≤ ps.toNat) :
    BitVec.ofNat 16 (hdrLen + (ps - 16).toNat) = ps := by
  rw [payloadLength_toNat h, hdrLen, Nat.add_sub_cancel' h, BitVec.ofNat_toNat, BitVec.setWidth_eq]

/-- HPACK of a payload length no packetSize can hold (R151). -/
theorem execHpack_of_tooLong {pl : U16} (h : 65519 < pl.toNat) (ty : Byte) (cs : U16) (t : Octets) (s : State) :
    execHpack ty pl cs t s = .next { s with response := some ⟨.payloadTooLong, .none⟩ } := by
  rw [execHpack, maxPayload, if_pos h, raise_eq]

/-- HPACK of a payload length that fits (R151). -/
theorem execHpack_of_fits {pl : U16} (h : pl.toNat ≤ 65519) (ty : Byte) (cs : U16) (t : Octets) (s : State) :
    execHpack ty pl cs t s =
      .next { s with response := some ⟨.ok, .header (headerOf ty (BitVec.ofNat 16 (hdrLen + pl.toNat)) cs t)⟩ } := by
  rw [execHpack, maxPayload, if_neg (Nat.not_lt.2 h), ok_eq]

theorem isSynced_iff {h : HeaderBytes} : isSynced h = true ↔ [h.s0, h.s1, h.s2] = sync := decide_eq_true_iff

/-- Bytes that begin with SYNC are the header of their own fields (R70, R71). -/
theorem headerOf_fields {h : HeaderBytes} (hs : [h.s0, h.s1, h.s2] = sync) : headerOf h.ty h.ps h.cs h.t = h := by
  obtain ⟨s0, s1, s2, ty, ps, cs, t⟩ := h
  obtain ⟨rfl, rfl, rfl⟩ : s0 = 0xA3 ∧ s1 = 0x9D ∧ s2 = 0x7A := by simpa [sync] using hs
  rfl

/-- HUNPACK verifies no checksum, so its flags hold `type_known` alone (R152). -/
theorem flagsByte_false (k : Bool) : flagsByte false k = if k then 0x02 else 0x00 := by
  cases k <;> rfl

/-- HUNPACK of bytes that begin with SYNC (R152). -/
theorem execHunpack_of_synced {h : HeaderBytes} (hs : [h.s0, h.s1, h.s2] = sync) (s : State) :
    execHunpack h s = .next { s with
      response := some ⟨.ok, .unpacked ⟨h.ty, if known h.ty then 0x02 else 0x00, h.ps, h.cs, h.t⟩⟩ } := by
  rw [execHunpack, if_pos (isSynced_iff.2 hs), flagsByte_false, ok_eq]

/-- HUNPACK of bytes that do not (R152). -/
theorem execHunpack_of_not_synced {h : HeaderBytes} (hs : [h.s0, h.s1, h.s2] ≠ sync) (s : State) :
    execHunpack h s = .next { s with response := some ⟨.syncMismatch, .none⟩ } := by
  rw [execHunpack, if_neg (mt isSynced_iff.1 hs), raise_eq]

/-- Settles O40: HPACK's header begins with SYNC and holds the operands; a packetSize that counts the header is that of
its own payload length. -/
theorem headersRoundTrip : Obligations.HeadersRoundTrip := by
  refine ⟨fun ty pl cs t s hpl => ?_, fun h s hsync hps => ?_⟩
  · exact ⟨_, _, execHpack_of_fits hpl ty cs t s, execHunpack_of_synced rfl s, packetSize_toNat_of_fits hpl⟩
  · have hpl : (h.ps - 16).toNat ≤ 65519 := by
      have := h.ps.isLt
      rw [payloadLength_toNat hps]
      omega
    have hpack := execHpack_of_fits hpl h.ty h.cs h.t s
    rwa [packetSize_payloadLength hps, headerOf_fields hsync] at hpack

/-- Settles O38: the two lengths of R151. -/
theorem hpackLaysOutTheHeader : Obligations.HpackLaysOutTheHeader :=
  fun ty _ cs t s => ⟨rfl, fun h => execHpack_of_tooLong h ty cs t s,
    fun h => ⟨_, _, execHpack_of_fits h ty cs t s, packetSize_toNat_of_fits h, rfl⟩⟩

/-- Settles O39: the two cases of R152, the words of the header read as bytes. -/
theorem hunpackReadsTheFields : Obligations.HunpackReadsTheFields := by
  intro a b c ty p1 p0 c1 c0 t s
  refine ⟨?_, fun hs => ?_, fun hs => execHunpack_of_not_synced hs s⟩
  · simp [encode, operandBytes, Instr.op, Op.code, HeaderBytes.bytes]
  · refine (execHunpack_of_synced hs s).trans ?_
    simp only [known_iff]

end Sys2Proof.Machine
end

section
/-! PROOFS. PUSH on each tag: the byte that is collected, the end of the header and the end of the frame
(spec/45_assembler.md R171 to R175). -/
namespace Sys2Proof.Machine

/-- A header with the sync marker, as the bytes of a stream (R70, R71). -/
theorem headerOf_bytes (ty p1 p0 c1 c0 : Byte) (t : Octets) :
    (headerOf ty (be16 p1 p0) (be16 c1 c0) t).bytes = [0xA3, 0x9D, 0x7A, ty, p1, p0, c1, c0] ++ t.bytes := by
  simp [headerOf, HeaderBytes.bytes]

section
variable {s : State} {b : Byte} {hd : HeaderBytes} {payload : List Byte}

theorem exec_push_of_seek (ht : s.tag = .seek) : exec (.push b) s = pushSeek (s.buf ++ [b]) s := by
  simp only [exec, execPush, appended, ht]

theorem exec_push_of_hdr (ht : s.tag = .hdr) : exec (.push b) s = pushHdr (s.buf ++ [b]) s := by
  simp only [exec, execPush, appended, ht]

theorem exec_push_of_pay (ht : s.tag = .pay) : exec (.push b) s = pushPay (s.buf ++ [b]) s := by
  simp only [exec, execPush, appended, ht]

/-- In SEEK the window with the byte is SYNC, has room, or loses its oldest byte (R171). -/
theorem exec_push_seek (ht : s.tag = .seek) (hlen : s.buf.length ≤ 2) :
    exec (.push b) s = .next { s with
      tag := if s.buf ++ [b] = sync then .hdr else .seek
      buf := if s.buf.length ≤ 1 ∨ s.buf ++ [b] = sync then s.buf ++ [b] else s.buf.drop 1 ++ [b]
      response := some ⟨.ok, .nothingCompleted⟩ } := by
  have hroom : (s.buf ++ [b]).length < 3 ↔ s.buf.length ≤ 1 := by simp; omega
  have hfull : (3 ≤ (s.buf ++ [b]).length ∧ s.buf ++ [b] = sync) ↔ s.buf ++ [b] = sync :=
    and_iff_right_of_imp fun h => by rw [h, sync_length]
  rw [exec_push_of_seek ht, pushSeek_eq]
  simp only [hroom, hfull]
  by_cases h : s.buf.length ≤ 1 ∨ s.buf ++ [b] = sync
  · simp only [if_pos h]
  · have hrolled : ((s.buf ++ [b]).drop 1).take 2 = s.buf.drop 1 ++ [b] := by
      rw [List.drop_append_of_le_length (by omega), List.take_of_length_le (by simp; omega)]
    simp only [if_neg h, hrolled]

/-- In HDR a byte before the sixteenth is collected (R171). -/
theorem exec_push_hdr_of_short (ht : s.tag = .hdr) (hlen : s.buf.length ≤ 14) :
    exec (.push b) s =
      .next { s with tag := .hdr, buf := s.buf ++ [b], response := some ⟨.ok, .nothingCompleted⟩ } := by
  rw [exec_push_of_hdr ht, pushHdr, hdrLen, if_pos (by simp; omega)]
  rfl

/-- In HDR the sixteenth byte ends the header (R172). -/
theorem exec_push_hdr_of_header (ht : s.tag = .hdr) (hf : s.buf ++ [b] = hd.bytes) :
    exec (.push b) s =
      if hd.ps.toNat < hdrLen then ok (.discarded hd.ps) (emptyAssembler s)
      else if hd.ps.toNat = hdrLen then complete hd.bytes hd [] s
      else ok .nothingCompleted (setAssembler .pay hd.bytes s) := by
  rw [exec_push_of_hdr ht, hf, pushHdr, headerBytes_bytes_length, hdrLen, if_neg (Nat.lt_irrefl 16), headerDone,
    frameFields_header]
  rfl

/-- A packetSize above 16 opens the payload (R172). -/
theorem exec_push_hdr_opens (ht : s.tag = .hdr) (hf : s.buf ++ [b] = hd.bytes) (hps : 16 < hd.ps.toNat) :
    exec (.push b) s =
      .next { s with tag := .pay, buf := s.buf ++ [b], response := some ⟨.ok, .nothingCompleted⟩ } := by
  rw [exec_push_hdr_of_header ht hf, hdrLen, if_neg hps.not_gt, if_neg hps.ne', hf]
  rfl

/-- A packetSize below 16 discards the frame (R172). -/
theorem exec_push_hdr_discards (ht : s.tag = .hdr) (hf : s.buf ++ [b] = hd.bytes) (hps : hd.ps.toNat < 16) :
    exec (.push b) s = .next { s with tag := .seek, buf := [], response := some ⟨.ok, .discarded hd.ps⟩ } := by
  rw [exec_push_hdr_of_header ht hf, hdrLen, if_pos hps]
  rfl

/-- In PAY the frame's own packetSize decides whether it is complete (R173). -/
theorem exec_push_pay_of_frame (ht : s.tag = .pay) (hf : s.buf ++ [b] = hd.bytes ++ payload) :
    exec (.push b) s =
      if (s.buf ++ [b]).length < hd.ps.toNat then ok .nothingCompleted (setAssembler .pay (s.buf ++ [b]) s)
      else complete (s.buf ++ [b]) hd payload s := by
  rw [exec_push_of_pay ht, pushPay, hf, frameFields_bytes]

/-- In PAY a byte before the last of the frame is collected (R173). -/
theorem exec_push_pay_of_short (ht : s.tag = .pay) (hf : s.buf ++ [b] = hd.bytes ++ payload)
    (hlen : 16 + payload.length < hd.ps.toNat) :
    exec (.push b) s =
      .next { s with tag := .pay, buf := s.buf ++ [b], response := some ⟨.ok, .nothingCompleted⟩ } := by
  have hshort : (s.buf ++ [b]).length < hd.ps.toNat := by rwa [hf, List.length_append, headerBytes_bytes_length]
  rw [exec_push_pay_of_frame ht hf, if_pos hshort]
  rfl

/-- The last byte of a frame completes it, in HDR when there is no payload and in PAY (R172, R173). -/
theorem exec_push_completes (ht : (s.tag = .hdr ∧ payload = []) ∨ s.tag = .pay)
    (hf : s.buf ++ [b] = hd.bytes ++ payload) (hlen : 16 + payload.length = hd.ps.toNat) :
    exec (.push b) s = complete (s.buf ++ [b]) hd payload s := by
  obtain ⟨ht, rfl⟩ | ht := ht
  · rw [List.append_nil] at hf
    have hps : hd.ps.toNat = 16 := hlen.symm
    rw [exec_push_hdr_of_header ht hf, hdrLen, if_neg hps.not_lt, if_pos hps, hf]
  · have hlast : ¬ (s.buf ++ [b]).length < hd.ps.toNat := by
      rw [hf, List.length_append, headerBytes_bytes_length, hlen]
      exact Nat.lt_irrefl _
    rw [exec_push_pay_of_frame ht hf, if_neg hlast]

end

/-- The packet of a frame as long as its packetSize says (R175). -/
theorem packetOf_of_length {hd : HeaderBytes} {len : Nat} (hlen : len = hd.ps.toNat) (payload : List Byte)
    (good : Bool) :
    packetOf hd payload len good = ⟨hd.ty, flagsByte good (known hd.ty), hd.ps, hd.cs, hd.t, payload⟩ := by
  rw [packetOf, hlen, BitVec.ofNat_toNat, BitVec.setWidth_eq]

section
variable {f payload : List Byte} {hd : HeaderBytes} {s : State}

/-- In strict mode a frame whose stored checksum is not its fold is dropped and reported (R174). -/
theorem complete_rejects (hstrict : strict s = true) (hne : hd.cs ≠ fold f) :
    complete f hd payload s = .next { s with
      tag := .seek, buf := [], response := some ⟨.checksumMismatch, .mismatch hd.cs (fold f)⟩ } := by
  rw [complete_eq, if_pos ⟨hstrict, hne⟩]

/-- A frame that meets the strict check, and is as long as its packetSize says, is emitted with its fields (R174,
R175). -/
theorem complete_emits (hgood : strict s = true → hd.cs = fold f) (hlen : f.length = hd.ps.toNat) :
    complete f hd payload s = .next { s with
      tag := .seek, buf := []
      response := some ⟨.ok, .packet
        ⟨hd.ty, flagsByte (decide (hd.cs = fold f)) (known hd.ty), hd.ps, hd.cs, hd.t, payload⟩⟩ } := by
  rw [complete_eq, if_neg fun ⟨hstrict, hne⟩ => hne (hgood hstrict), packetOf_of_length hlen]

end

/-- Settles O12: the window is SYNC, has room, or loses its oldest byte. -/
theorem pushSeeksTheMarker : Obligations.PushSeeksTheMarker :=
  fun _ _ ht hlen => exec_push_seek ht hlen

/-- Settles O13: the header is not complete with the byte. -/
theorem pushCollectsTheHeader : Obligations.PushCollectsTheHeader := by
  intro s b ht hlen
  rw [exec_push_hdr_of_short ht hlen, ← ht]

/-- Settles O14: the two packetSizes that do not complete the frame. -/
theorem pushEndsTheHeader : Obligations.PushEndsTheHeader := by
  intro s b ty p1 p0 c1 c0 t ht hf
  rw [← headerOf_bytes] at hf
  rw [← be16_toNat]
  exact ⟨exec_push_hdr_discards ht hf, exec_push_hdr_opens ht hf⟩

/-- Settles O15: the frame is not complete with the byte. -/
theorem pushCollectsThePayload : Obligations.PushCollectsThePayload := by
  intro s b ty p1 p0 c1 c0 t payload ht hf hlen
  rw [← headerOf_bytes] at hf
  rw [← be16_toNat] at hlen
  rw [exec_push_pay_of_short ht hf hlen, ← ht]

/-- Settles O16: COMPLETE's two responses, on a frame as long as its packetSize says. -/
theorem pushCompletesTheFrame : Obligations.PushCompletesTheFrame := by
  intro s b ty p1 p0 c1 c0 t payload ht hf hlen
  rw [← headerOf_bytes] at hf
  rw [← be16_toNat] at hlen
  rw [exec_push_completes ht hf hlen]
  refine ⟨fun hstrict hne => complete_rejects hstrict hne, fun hgood => ?_⟩
  have hstored : strict s = true → be16 c1 c0 = fold (s.buf ++ [b]) := fun hstrict =>
    hgood.resolve_left (by rw [← strict, hstrict]; decide)
  rw [complete_emits hstored (by rwa [hf, List.length_append, headerBytes_bytes_length])]
  simp only [flagsByte_eq, known_iff, decide_eq_true_eq]
  rfl

end Sys2Proof.Machine
end

section
/-! PROOFS. EOS, FLUSH, SETMODE and QUERY: the one answer of each (spec/45_assembler.md R176 to R179). -/
namespace Sys2Proof.Machine

/-- Settles O17: the report names the tag before it. -/
theorem eosReportsATruncatedFrame : Obligations.EosReportsATruncatedFrame := by
  refine ⟨rfl, fun s => ?_⟩
  rw [exec, execEos]
  cases ht : s.tag with
  | seek => exact ⟨fun _ => rfl, fun hne => absurd rfl hne⟩
  | hdr => exact ⟨nofun, fun _ => rfl⟩
  | pay => exact ⟨nofun, fun _ => rfl⟩

/-- Settles O18: FLUSH reads nothing of the state. -/
theorem flushEmptiesTheAssembler : Obligations.FlushEmptiesTheAssembler := ⟨rfl, fun _ => rfl⟩

/-- The reserved bits of an operand of SETMODE are 0 when it is 0 or 1 (R27). -/
theorem reservedBits_eq_zero_iff_toNat_le {m : Byte} : m.extractLsb' 1 7 = 0 ↔ m.toNat ≤ 1 := by
  revert m
  decide

/-- Settles O19: the bytes with no reserved bit set are those of STRICT = 0 and STRICT = 1. -/
theorem setmodeWritesStrict : Obligations.SetmodeWritesStrict := by
  intro s m
  refine ⟨rfl, fun hm => ?_, fun hm => ?_⟩
  · obtain rfl | rfl := reservedBits_eq_zero_iff.1 (reservedBits_eq_zero_iff_toNat_le.2 hm)
    · rfl
    · rfl
  · rw [exec, execSetmode, if_neg (mt reservedBits_eq_zero_iff_toNat_le.1 (Nat.not_le.2 hm)), raise_eq]

/-- With the reserved bits 0, CTRL reads as it stands (R27). -/
theorem readCtrl_of_wf {s : State} (hs : s.wf = true) : readCtrl s = s.ctrl := by
  obtain hc | hc := reservedBits_eq_zero_iff.1 (ctrl_of_wf hs)
  · rw [readCtrl, hc]
    rfl
  · rw [readCtrl, hc]
    rfl

/-- Settles O20: the views QUERY reads are the registers themselves on a state of R24 and R27. -/
theorem queryReportsTheState : Obligations.QueryReportsTheState := by
  refine ⟨rfl, fun s hs => ?_⟩
  rw [exec, execQuery, readCtrl_of_wf hs]
  rfl

end Sys2Proof.Machine
end

section
/-! PROOFS. What a PUSH can do, said once, and the statements about any PUSH: it is always answered, where the assembler
moves, and what a packet is made of (spec/45_assembler.md R170, R175, R180, R183). -/
namespace Sys2Proof.Machine

/-- The states a PUSH of `b` on `s` can leave (R171 to R174): the byte is collected, the frame is discarded for its
packetSize, or the frame is complete and COMPLETE drops or emits it. -/
inductive PushOutcome (s : State) (b : Byte) : State → Prop
  | collected (tag : AsmTag) (buf : List Byte) (hseek : s.tag = .seek → tag ≠ .pay) (hpay : s.tag = .pay → tag ≠ .hdr) :
    PushOutcome s b { s with tag := tag, buf := buf, response := some ⟨.ok, .nothingCompleted⟩ }
  | discarded (ps : U16) :
    PushOutcome s b { s with tag := .seek, buf := [], response := some ⟨.ok, .discarded ps⟩ }
  | dropped (stored computed : U16) (hstrict : strict s = true) :
    PushOutcome s b
      { s with tag := .seek, buf := [], response := some ⟨.checksumMismatch, .mismatch stored computed⟩ }
  | emitted (hd : HeaderBytes) (payload : List Byte) (good : Bool) (hf : s.buf ++ [b] = hd.bytes ++ payload)
      (hlast : (s.tag = .hdr ∧ hd.ps.toNat = 16) ∨ (s.tag = .pay ∧ hd.ps.toNat ≤ (s.buf ++ [b]).length)) :
    PushOutcome s b { s with
      tag := .seek, buf := [], response := some ⟨.ok, .packet (packetOf hd payload (s.buf ++ [b]).length good)⟩ }

section
variable {s t : State} {b : Byte}

theorem pushOutcome_of_complete {hd : HeaderBytes} {payload : List Byte} (hf : s.buf ++ [b] = hd.bytes ++ payload)
    (hlast : (s.tag = .hdr ∧ hd.ps.toNat = 16) ∨ (s.tag = .pay ∧ hd.ps.toNat ≤ (s.buf ++ [b]).length))
    (h : complete (s.buf ++ [b]) hd payload s = .next t) : PushOutcome s b t := by
  rw [complete_eq] at h
  injection h with h
  subst h
  split_ifs with hreject
  · exact .dropped _ _ hreject.1
  · exact .emitted hd payload _ hf hlast

theorem pushOutcome_of_pushSeek (ht : s.tag = .seek) (h : pushSeek (s.buf ++ [b]) s = .next t) : PushOutcome s b t := by
  rw [pushSeek_eq] at h
  injection h with h
  subst h
  refine .collected _ _ (fun _ => ?_) (by simp [ht])
  split_ifs
  · nofun
  · nofun

theorem pushOutcome_of_pushHdr (ht : s.tag = .hdr) (h : pushHdr (s.buf ++ [b]) s = .next t) : PushOutcome s b t := by
  have hcollected (tag : AsmTag) (buf : List Byte) := PushOutcome.collected (s := s) (b := b) tag buf (by simp [ht])
    (by simp [ht])
  rw [pushHdr] at h
  split_ifs at h
  · injection h with h
    exact h ▸ hcollected ..
  · rw [headerDone] at h
    split at h
    · cases h
    · rename_i hd payload hf
      split_ifs at h with hsmall heq
      · injection h with h
        exact h ▸ .discarded hd.ps
      · exact pushOutcome_of_complete (frameFields_eq_some hf) (.inl ⟨ht, heq⟩) h
      · injection h with h
        exact h ▸ hcollected ..

theorem pushOutcome_of_pushPay (ht : s.tag = .pay) (h : pushPay (s.buf ++ [b]) s = .next t) : PushOutcome s b t := by
  rw [pushPay] at h
  split at h
  · cases h
  · rename_i hd payload hf
    split_ifs at h with hshort
    · injection h with h
      exact h ▸ .collected .pay _ (by simp [ht]) nofun
    · exact pushOutcome_of_complete (frameFields_eq_some hf) (.inr ⟨ht, Nat.not_lt.1 hshort⟩) h

/-- What a PUSH can do, on any state (R171). -/
theorem pushOutcome_of_exec (h : exec (.push b) s = .next t) : PushOutcome s b t := by
  cases ht : s.tag with
  | seek => exact pushOutcome_of_pushSeek ht (exec_push_of_seek ht ▸ h)
  | hdr => exact pushOutcome_of_pushHdr ht (exec_push_of_hdr ht ▸ h)
  | pay => exact pushOutcome_of_pushPay ht (exec_push_of_pay ht ▸ h)

end

/-- On a state of R24 a PUSH is answered by one response, OK or ChecksumMismatch, and leaves a state of R24 with CTRL as
it was (R180). -/
theorem exec_push_answers {s : State} (hs : s.wf = true) (b : Byte) :
    ∃ t r, exec (.push b) s = .next t ∧ t.response = some r ∧ t.wf = true ∧ t.ctrl = s.ctrl ∧
      (r.status = .ok ∨ r.status = .checksumMismatch) := by
  obtain ⟨block, r, -, hanswer⟩ := answersOnce_execPush hs b
  obtain ⟨t, h⟩ : ∃ t, exec (.push b) s = .next t := ⟨_, hanswer s rfl rfl⟩
  have hwf := exec_keeps_wf hs h
  cases pushOutcome_of_exec h with
  | collected => exact ⟨_, _, h, rfl, hwf, rfl, .inl rfl⟩
  | discarded => exact ⟨_, _, h, rfl, hwf, rfl, .inl rfl⟩
  | dropped => exact ⟨_, _, h, rfl, hwf, rfl, .inr rfl⟩
  | emitted => exact ⟨_, _, h, rfl, hwf, rfl, .inl rfl⟩

/-- Every byte of a stream is answered, from any state of R24 (R180). -/
theorem feed_answers (bytes : List Byte) {s : State} (hs : s.wf = true) :
    ∃ t rs, feed bytes s = some (t, rs) ∧ rs.length = bytes.length ∧ t.wf = true ∧ t.ctrl = s.ctrl ∧
      ∀ r ∈ rs, r.status = .ok ∨ r.status = .checksumMismatch := by
  induction bytes generalizing s with
  | nil => exact ⟨s, [], rfl, rfl, hs, rfl, List.forall_mem_nil _⟩
  | cons b bytes ih =>
    obtain ⟨u, r, hpush, hr, hu, huctrl, hstatus⟩ := exec_push_answers hs b
    obtain ⟨t, rs, hfeed, hlen, ht, htctrl, hrs⟩ := ih hu
    refine ⟨t, r :: rs, ?_, by rw [List.length_cons, hlen, List.length_cons], ht, htctrl.trans huctrl,
      List.forall_mem_cons.2 ⟨hstatus, hrs⟩⟩
    rw [feed_cons_next hpush hr, hfeed, Option.map_some]

/-- Settles O47: one response a byte, so at most one packet a byte. -/
theorem noStreamStopsTheAssembler : Obligations.NoStreamStopsTheAssembler := by
  intro bytes s hs
  obtain ⟨t, rs, hfeed, hlen, ht, hctrl, hrs⟩ := feed_answers bytes hs
  exact ⟨t, rs, hfeed, hlen, ht, hctrl, hlen ▸ List.length_filterMap_le _ rs, hrs⟩

/-- EOS empties the assembler, whatever it reports (R176). -/
theorem exec_eos_empties {s t : State} (h : exec .eos s = .next t) : t.tag = .seek ∧ t.buf = [] := by
  obtain ⟨-, heos⟩ := eosReportsATruncatedFrame
  obtain ⟨hseek, hreport⟩ := heos s
  by_cases ht : s.tag = .seek
  · rw [hseek ht] at h
    injection h with h
    exact h ▸ ⟨rfl, rfl⟩
  · rw [hreport ht] at h
    injection h with h
    exact h ▸ ⟨rfl, rfl⟩

/-- SETMODE, QUERY and the commands of the stateless units leave the assembler (R33, R178, R179). -/
theorem exec_keeps_assembler {i : Instr} {s t : State} (hi : (∃ m, i = .setmode m) ∨ i = .query ∨ isPure i = true)
    (h : exec i s = .next t) : t.tag = s.tag ∧ t.buf = s.buf := by
  obtain ⟨m, rfl⟩ | rfl | hp := hi
  · obtain ⟨r, ⟨-, rfl⟩ | rfl⟩ := execSetmode_next h
    · exact ⟨rfl, rfl⟩
    · exact ⟨rfl, rfl⟩
  · rw [exec, execQuery, ok_eq] at h
    injection h with h
    exact h ▸ ⟨rfl, rfl⟩
  · obtain ⟨r, rfl⟩ := exec_pure_next hp h
    exact ⟨rfl, rfl⟩

/-- Settles O59: PUSH by what it can do, EOS and FLUSH by what they write; no other command writes the assembler. -/
theorem assemblerMovesOnlyOnPushEosFlush : Obligations.AssemblerMovesOnlyOnPushEosFlush := by
  intro i s t h hmoved
  have hother (hi : (∃ m, i = .setmode m) ∨ i = .query ∨ isPure i = true) : False := by
    obtain ⟨htag, hbuf⟩ := exec_keeps_assembler hi h
    exact hmoved.elim (· htag) (· hbuf)
  cases i with
  | push b =>
    refine .inl ⟨b, rfl, ?_⟩
    cases pushOutcome_of_exec h with
    | collected _ _ hseek hpay => exact ⟨hseek, hpay⟩
    | discarded => exact ⟨nofun, nofun⟩
    | dropped => exact ⟨nofun, nofun⟩
    | emitted => exact ⟨nofun, nofun⟩
  | eos => exact .inr ⟨.inl rfl, exec_eos_empties h⟩
  | flush =>
    injection h with h
    exact .inr ⟨.inr rfl, h ▸ ⟨rfl, rfl⟩⟩
  | setmode m => exact (hother (.inl ⟨m, rfl⟩)).elim
  | query => exact (hother (.inr (.inl rfl))).elim
  | hpack | hunpack | csum | cverify | tsenc | tsdec | typename | encode => exact (hother (.inr (.inr rfl))).elim

/-- Every response the answer `a` gives satisfies `P`. -/
def RespondsWith (P : Response → Prop) (a : Answer) : Prop := ∀ t r, a = .next t → t.response = some r → P r

section
variable {P : Response → Prop}

theorem respondsWith_respond {st : Status} {r : Results} (h : P ⟨st, r⟩) (s : State) :
    RespondsWith P (respond st r s) := by
  intro t r' ht hr
  injection ht with ht
  subst ht
  injection hr with hr
  exact hr ▸ h

theorem respondsWith_refused (x : Refusal) : RespondsWith P (.refused x) := by
  intro t r h
  cases h

theorem respondsWith_ite {p : Prop} [Decidable p] {a c : Answer} (ha : RespondsWith P a) (hc : RespondsWith P c) :
    RespondsWith P (if p then a else c) := by
  by_cases hp : p
  · rwa [if_pos hp]
  · rwa [if_neg hp]

end

/-- The response carries no packet. -/
def CarriesNoPacket (r : Response) : Prop := ∀ p, r.results ≠ .packet p

/-- No command but PUSH answers a packet (R183). -/
theorem exec_carriesNoPacket {i : Instr} (hi : ∀ b, i ≠ .push b) (s : State) :
    RespondsWith CarriesNoPacket (exec i s) := by
  cases i with
  | push b => exact absurd rfl (hi b)
  | eos =>
    rw [exec, execEos]
    cases s.tag with
    | seek => exact respondsWith_respond nofun _
    | hdr => exact respondsWith_respond nofun _
    | pay => exact respondsWith_respond nofun _
  | flush => exact respondsWith_respond nofun _
  | setmode m => exact respondsWith_ite (respondsWith_respond nofun _) (respondsWith_respond nofun _)
  | query => exact respondsWith_respond nofun _
  | hpack => exact respondsWith_ite (respondsWith_respond nofun _) (respondsWith_respond nofun _)
  | hunpack => exact respondsWith_ite (respondsWith_respond nofun _) (respondsWith_respond nofun _)
  | csum => exact respondsWith_ite (respondsWith_respond nofun _) (respondsWith_respond nofun _)
  | cverify v =>
    refine respondsWith_ite (respondsWith_respond nofun _) ?_
    cases storedChecksum v with
    | none => exact respondsWith_respond nofun _
    | some stored => exact respondsWith_respond nofun _
  | tsenc I =>
    rw [exec, execTsenc]
    cases encodeInstant s.cfg.tsFormat I with
    | field t => exact respondsWith_respond nofun _
    | outOfRange => exact respondsWith_respond nofun _
    | otherFormat => exact respondsWith_refused _
  | tsdec => exact respondsWith_respond nofun _
  | typename => exact respondsWith_ite (respondsWith_respond nofun _) (respondsWith_respond nofun _)
  | encode ty v I =>
    rw [exec, execEncode]
    cases encodeInstant s.cfg.tsFormat I with
    | field t =>
      exact respondsWith_ite (respondsWith_respond nofun _)
        (respondsWith_ite (respondsWith_respond nofun _) (respondsWith_respond nofun _))
    | outOfRange =>
      exact respondsWith_ite (respondsWith_respond nofun _)
        (respondsWith_ite (respondsWith_respond nofun _) (respondsWith_respond nofun _))
    | otherFormat => exact respondsWith_refused _

/-- Outside SEEK a buffer R24 allows begins with SYNC. -/
theorem take_eq_sync_of_wf {s : State} (hs : s.wf = true) (ht : s.tag ≠ .seek) :
    3 ≤ s.buf.length ∧ s.buf.take 3 = sync := by
  cases htag : s.tag with
  | seek => exact absurd htag ht
  | hdr =>
    obtain ⟨⟨hmin, -, hsync⟩, -⟩ := (wf_hdr_iff htag).1 hs
    exact ⟨hmin, hsync⟩
  | pay =>
    obtain ⟨⟨-, -, -, hmin, -, hsync⟩, -⟩ := (wf_pay_iff htag).1 hs
    exact ⟨by omega, hsync⟩

section
variable {s : State} {b : Byte} {hd : HeaderBytes} {payload : List Byte}

/-- The frame a byte completes on a state of R24 begins with SYNC (R171). -/
theorem synced_of_wf (hs : s.wf = true) (ht : s.tag ≠ .seek) (hf : s.buf ++ [b] = hd.bytes ++ payload) :
    [hd.s0, hd.s1, hd.s2] = sync := by
  obtain ⟨hmin, hsync⟩ := take_eq_sync_of_wf hs ht
  calc [hd.s0, hd.s1, hd.s2] = (hd.bytes ++ payload).take 3 := rfl
    _ = sync := by rw [← hf, List.take_append_of_le_length hmin, hsync]

/-- The frame a byte completes on a state of R24 is as long as its packetSize says (R24, R25). -/
theorem packetSize_of_last (hs : s.wf = true) (hf : s.buf ++ [b] = hd.bytes ++ payload)
    (hlast : (s.tag = .hdr ∧ hd.ps.toNat = 16) ∨ (s.tag = .pay ∧ hd.ps.toNat ≤ (s.buf ++ [b]).length)) :
    (s.buf ++ [b]).length = hd.ps.toNat := by
  have hlen : s.buf.length + 1 = 16 + payload.length := by
    simpa using congrArg List.length hf
  rw [List.length_append, List.length_singleton] at hlast ⊢
  obtain ⟨ht, hps⟩ | ⟨ht, hps⟩ := hlast
  · obtain ⟨⟨-, hmax, -⟩, -⟩ := (wf_hdr_iff ht).1 hs
    omega
  · obtain ⟨⟨hd', payload', hfields, -, hlt, -⟩, -⟩ := (wf_pay_iff ht).1 hs
    have hsame := frameFields_append hfields [b]
    rw [hf, frameFields_bytes] at hsame
    injection hsame with hsame
    injection hsame with hhd
    subst hhd
    omega

end

/-- Settles O60: of what a PUSH can do only the emitted frame carries a packet. -/
theorem packetsComeOnlyFromPush : Obligations.PacketsComeOnlyFromPush := by
  intro i s t st p hs h hr
  by_cases hi : ∃ b, i = .push b
  · obtain ⟨b, rfl⟩ := hi
    cases pushOutcome_of_exec h with
    | collected => simp at hr
    | discarded => simp at hr
    | dropped => simp at hr
    | emitted hd payload good hf hlast =>
      obtain ⟨rfl, rfl⟩ : Status.ok = st ∧ packetOf hd payload (s.buf ++ [b]).length good = p := by simpa using hr
      have htag : s.tag ≠ .seek := by
        obtain ⟨ht, -⟩ | ⟨ht, -⟩ := hlast
        · simp [ht]
        · simp [ht]
      have hlen := packetSize_of_last hs hf hlast
      rw [packetOf_of_length hlen]
      obtain ⟨p1, p0, hps⟩ : ∃ p1 p0, hd.ps = be16 p1 p0 := ⟨_, _, (be16_split hd.ps).symm⟩
      obtain ⟨c1, c0, hcs⟩ : ∃ c1 c0, hd.cs = be16 c1 c0 := ⟨_, _, (be16_split hd.cs).symm⟩
      refine ⟨b, p1, p0, c1, c0, rfl, htag, rfl, rfl, rfl, hps, hcs, hlen.symm, ?_⟩
      rw [hf, ← headerOf_fields (synced_of_wf hs htag hf), hps, hcs, headerOf_bytes]
      rfl
  · exact absurd rfl (exec_carriesNoPacket (not_exists.1 hi) s t _ h hr p)

end Sys2Proof.Machine
end

section
/-! PROOFS. Feeding a whole frame: every byte before its last is collected, from any window of SEEK, and the last
completes it (spec/45_assembler.md R171 to R175, R181, R182). -/
namespace Sys2Proof.Machine

/-- Each byte of `bytes` fed to `s` is answered OK with event 0, and the assembler then holds `buf` in `tag`; nothing
else but the response is written. -/
def Collects (s : State) (bytes : List Byte) (tag : AsmTag) (buf : List Byte) : Prop :=
  ∃ r, feed bytes s = some ({ s with tag := tag, buf := buf, response := r },
    List.replicate bytes.length ⟨.ok, .nothingCompleted⟩)

section
variable {s : State} {bytes more buf buf' : List Byte} {tag tag' : AsmTag} {b : Byte}

theorem collects_nil (s : State) : Collects s [] s.tag s.buf := ⟨s.response, rfl⟩

theorem collects_byte
    (h : exec (.push b) s = .next { s with tag := tag, buf := buf, response := some ⟨.ok, .nothingCompleted⟩ }) :
    Collects s [b] tag buf := by
  refine ⟨some ⟨.ok, .nothingCompleted⟩, ?_⟩
  rw [feed_cons_next h rfl]
  rfl

/-- Feeding is a left fold (R181). -/
theorem collects_append (h : Collects s bytes tag buf)
    (hmore : ∀ r, Collects { s with tag := tag, buf := buf, response := r } more tag' buf') :
    Collects s (bytes ++ more) tag' buf' := by
  obtain ⟨r, hfeed⟩ := h
  obtain ⟨r', hfeed'⟩ := hmore r
  refine ⟨r', ?_⟩
  rw [feed_append, hfeed, Option.bind_some, hfeed', List.length_append, List.replicate_add]
  rfl

/-- The responses of collected bytes and of the byte after them, which ends in `t`. -/
theorem feed_of_collects (h : Collects s bytes tag buf) {t : State} {r : Response}
    (hlast : ∀ r', exec (.push b) { s with tag := tag, buf := buf, response := r' } = .next t)
    (hr : t.response = some r) :
    feed (bytes ++ [b]) s = some (t, List.replicate bytes.length ⟨.ok, .nothingCompleted⟩ ++ [r]) := by
  obtain ⟨r', hfeed⟩ := h
  rw [feed_append, hfeed, Option.bind_some, feed_cons_next (hlast r') hr]
  rfl

/-- In HDR every byte before the sixteenth is collected (R171). -/
theorem collects_hdr (ht : s.tag = .hdr) (hlen : s.buf.length + bytes.length ≤ 15) :
    Collects s bytes .hdr (s.buf ++ bytes) := by
  induction bytes generalizing s with
  | nil => simpa [ht] using collects_nil s
  | cons b bytes ih =>
    rw [List.length_cons] at hlen
    have hbyte := collects_byte (exec_push_hdr_of_short (b := b) ht (by omega))
    rw [List.append_cons]
    exact collects_append hbyte fun r => ih rfl (by simp; omega)

/-- In PAY every byte before the last of the frame is collected (R173). -/
theorem collects_pay {hd : HeaderBytes} {payload : List Byte} (ht : s.tag = .pay) (hf : s.buf = hd.bytes ++ payload)
    (hlen : 16 + payload.length + bytes.length < hd.ps.toNat) : Collects s bytes .pay (s.buf ++ bytes) := by
  induction bytes generalizing s payload with
  | nil => simpa [ht] using collects_nil s
  | cons b bytes ih =>
    rw [List.length_cons] at hlen
    have hf' : s.buf ++ [b] = hd.bytes ++ (payload ++ [b]) := by rw [hf, List.append_assoc]
    have hbyte := collects_byte (exec_push_pay_of_short ht hf' (by simp; omega))
    rw [List.append_cons]
    exact collects_append hbyte fun r => ih rfl hf' (by simp; omega)

/-- In SEEK a byte that does not complete the marker rolls into the window (R171). -/
theorem collects_rolled (ht : s.tag = .seek) (hlen : s.buf.length ≤ 2) (hne : s.buf ++ [b] ≠ sync) :
    Collects s [b] .seek (if s.buf.length ≤ 1 then s.buf ++ [b] else s.buf.drop 1 ++ [b]) := by
  refine collects_byte ?_
  rw [exec_push_seek ht hlen]
  simp only [hne, or_false, if_false]

/-- A window that has room keeps every byte (R171). -/
theorem collects_room (ht : s.tag = .seek) (hlen : s.buf.length ≤ 1) : Collects s [b] .seek (s.buf ++ [b]) := by
  have hne : s.buf ++ [b] ≠ sync := by
    intro h
    have h3 := congrArg List.length h
    rw [List.length_append, List.length_singleton, sync_length] at h3
    omega
  simpa only [if_pos hlen] using collects_rolled ht (by omega) hne

/-- The first two bytes fed to an empty SEEK are its window. -/
theorem collects_window (x y : Byte) (ht : s.tag = .seek) (hb : s.buf = []) : Collects s [x, y] .seek [x, y] := by
  have hfirst : Collects s [x] .seek [x] := by
    simpa only [hb, List.nil_append] using collects_room (b := x) ht (by rw [hb]; exact Nat.zero_le 1)
  exact collects_append hfirst fun _ => collects_room rfl (Nat.le_refl 1)

/-- A window whose last byte is not the marker's is not the marker (R71). -/
theorem append_ne_sync {w : List Byte} (hb : b ≠ 0x7A) : w ++ [b] ≠ sync := by
  intro h
  have hlast := congrArg List.getLast? h
  rw [List.getLast?_concat] at hlast
  injection hlast with hlast
  exact hb hlast

/-- The marker's first byte is the last of the window, whatever stood before it. -/
theorem collects_sync_first (ht : s.tag = .seek) (hlen : s.buf.length ≤ 2) :
    ∃ w : List Byte, w.length ≤ 1 ∧ Collects s [0xA3] .seek (w ++ [0xA3]) := by
  have hrolled := collects_rolled ht hlen (append_ne_sync (b := 0xA3) (by decide))
  by_cases h : s.buf.length ≤ 1
  · exact ⟨s.buf, h, by simpa only [if_pos h] using hrolled⟩
  · exact ⟨s.buf.drop 1, by rw [List.length_drop]; omega, by simpa only [if_neg h] using hrolled⟩

/-- The marker's second byte leaves the window with the two alone. -/
theorem collects_sync_second {w : List Byte} (ht : s.tag = .seek) (hb : s.buf = w ++ [0xA3]) (hw : w.length ≤ 1) :
    Collects s [0x9D] .seek [0xA3, 0x9D] := by
  have hlen : s.buf.length ≤ 2 := by rw [hb, List.length_append]; exact Nat.succ_le_succ hw
  have hrolled := collects_rolled ht hlen (append_ne_sync (b := 0x9D) (by decide))
  rw [hb] at hrolled
  obtain hw | hw := Nat.le_one_iff_eq_zero_or_eq_one.1 hw
  · obtain rfl := List.length_eq_zero_iff.1 hw
    exact hrolled
  · obtain ⟨x, rfl⟩ := List.length_eq_one_iff.1 hw
    exact hrolled

/-- The marker's third byte makes the window a frame. -/
theorem collects_sync_third (ht : s.tag = .seek) (hb : s.buf = [0xA3, 0x9D]) : Collects s [0x7A] .hdr sync := by
  have hfull : s.buf ++ [0x7A] = sync := by rw [hb]; rfl
  refine collects_byte ?_
  rw [exec_push_seek ht (by rw [hb]; exact Nat.le_refl 2)]
  simp only [hfull, or_true, if_true]

/-- No byte of the marker is lost, whatever window it is fed to (R171, R182). -/
theorem collects_sync (ht : s.tag = .seek) (hlen : s.buf.length ≤ 2) : Collects s sync .hdr sync := by
  obtain ⟨w, hw, hfirst⟩ := collects_sync_first ht hlen
  have hsecond := collects_append hfirst fun _ => collects_sync_second rfl rfl hw
  exact collects_append hsecond fun _ => collects_sync_third rfl rfl

end

/-- The packet of a frame whose length is its packetSize (R175). -/
def framePacket (hd : HeaderBytes) (payload : List Byte) : Packet where
  ty := hd.ty
  flags := flagsByte (decide (hd.cs = fold (hd.bytes ++ payload))) (known hd.ty)
  ps := hd.ps
  cs := hd.cs
  t := hd.t
  payload := payload

section
variable {s : State} {hd : HeaderBytes} {payload : List Byte}

/-- A header that begins with SYNC, cut after the marker and before its last byte. -/
theorem headerBytes_cut (hsync : [hd.s0, hd.s1, hd.s2] = sync) :
    ∃ mid, mid.length = 12 ∧ hd.bytes = sync ++ mid ++ [hd.t.b7] :=
  ⟨[hd.ty] ++ bytes16 hd.ps ++ bytes16 hd.cs ++ hd.t.bytes.dropLast, rfl, by rw [← hsync]; rfl⟩

/-- Every byte of a frame before its last is collected, in HDR when there is no payload and in PAY otherwise (R171). -/
theorem collects_frame (ht : s.tag = .seek) (hlen : s.buf.length ≤ 2) (hsync : [hd.s0, hd.s1, hd.s2] = sync)
    (hps : 16 + payload.length = hd.ps.toNat) :
    ∃ front b tag, hd.bytes ++ payload = front ++ [b] ∧ Collects s front tag front ∧
      ((tag = .hdr ∧ payload = []) ∨ tag = .pay) := by
  obtain ⟨mid, hmid, hbytes⟩ := headerBytes_cut hsync
  have hheader : Collects s (sync ++ mid) .hdr (sync ++ mid) :=
    collects_append (collects_sync ht hlen) fun _ => collects_hdr rfl (by simp [hmid])
  obtain rfl | ⟨body, b, rfl⟩ := List.eq_nil_or_concat' payload
  · exact ⟨sync ++ mid, hd.t.b7, .hdr, by rw [List.append_nil, hbytes], hheader, .inl ⟨rfl, rfl⟩⟩
  · rw [List.length_append, List.length_singleton] at hps
    have hopened : Collects s hd.bytes .pay hd.bytes := by
      rw [hbytes]
      exact collects_append hheader fun _ => collects_byte (exec_push_hdr_opens rfl hbytes.symm (by omega))
    have hbody : Collects s (hd.bytes ++ body) .pay (hd.bytes ++ body) :=
      collects_append hopened fun _ =>
        collects_pay rfl (List.append_nil hd.bytes).symm (by rw [List.length_nil]; omega)
    exact ⟨hd.bytes ++ body, b, .pay, (List.append_assoc ..).symm, hbody, .inr rfl⟩

/-- A frame that meets the strict check, fed to SEEK with any window, gives its packet on its last byte and no other
event (R174, R175, R182). -/
theorem feed_frame (ht : s.tag = .seek) (hlen : s.buf.length ≤ 2) (hsync : [hd.s0, hd.s1, hd.s2] = sync)
    (hps : 16 + payload.length = hd.ps.toNat) (hgood : strict s = true → hd.cs = fold (hd.bytes ++ payload)) :
    feed (hd.bytes ++ payload) s =
      some ({ s with tag := .seek, buf := [], response := some ⟨.ok, .packet (framePacket hd payload)⟩ },
        List.replicate (15 + payload.length) ⟨.ok, .nothingCompleted⟩ ++
          [⟨.ok, .packet (framePacket hd payload)⟩]) := by
  have hframe : (hd.bytes ++ payload).length = 16 + payload.length := by
    rw [List.length_append, headerBytes_bytes_length]
  obtain ⟨front, b, tag, hcut, hfront, htag⟩ := collects_frame ht hlen hsync hps
  have hcount : front.length = 15 + payload.length := by
    rw [hcut, List.length_append, List.length_singleton] at hframe
    omega
  rw [hcut, ← hcount]
  refine feed_of_collects hfront (fun r => ?_) rfl
  rw [exec_push_completes htag hcut.symm hps, ← hcut]
  exact complete_emits hgood (hframe.trans hps)

end

/-- Emptying an assembler that is empty changes nothing. -/
theorem withEmptyAssembler {s : State} (ht : s.tag = .seek) (hb : s.buf = []) (r : Option Response) :
    ({ s with tag := .seek, buf := [], response := r } : State) = { s with response := r } := by
  rw [← ht, ← hb]

/-- Settles O48: the two bytes are the window the frame is fed to. -/
theorem garbageThenAFrameGivesOnePacket : Obligations.GarbageThenAFrameGivesOnePacket := by
  intro s ty p1 p0 c1 c0 t payload f ht hb hf hlen hgood
  rw [← headerOf_bytes] at hf
  rw [← be16_toNat] at hlen
  subst hf
  obtain ⟨r, hwindow⟩ := collects_window 0xFF 0xFF ht hb
  have hframe := feed_frame (s := { s with tag := .seek, buf := [0xFF, 0xFF], response := r })
    (hd := headerOf ty (be16 p1 p0) (be16 c1 c0) t) rfl (Nat.le_refl 2) rfl hlen hgood
  refine ⟨framePacket (headerOf ty (be16 p1 p0) (be16 c1 c0) t) payload, rfl, rfl, rfl, rfl, rfl, ?_⟩
  have hcount : 17 + payload.length = 2 + (15 + payload.length) := by omega
  rw [feed_append, hwindow, Option.bind_some, hframe, Option.map_some, hcount, List.replicate_add 2, List.append_assoc,
    ← withEmptyAssembler ht hb]
  rfl

end Sys2Proof.Machine
end

section
/-! PROOFS. The frames of ENCODE: which operands it accepts, the header it builds over the payload, and that this header
stores the fold of its own frame (spec/46_encoder.md R210 to R212). -/
namespace Sys2Proof.Machine

/-- The fold does not read the checksum field of the header (R130). -/
theorem fold_headerOf_congr (ty : Byte) (ps cs cs' : U16) (t : Octets) (v : List Byte) :
    fold ((headerOf ty ps cs t).bytes ++ v) = fold ((headerOf ty ps cs' t).bytes ++ v) := by
  have hfold (c : U16) : fold ((headerOf ty ps c t).bytes ++ v) =
      (xorAll ([0xA3, 0x9D, 0x7A, ty] ++ bytes16 ps) ^^^ xorAll (t.bytes ++ v)).setWidth 16 :=
    fold_split (pre := [0xA3, 0x9D, 0x7A, ty] ++ bytes16 ps) rfl (c.extractLsb' 8 8) (c.extractLsb' 0 8)
  rw [hfold, hfold]

/-- The checksum a frame stores is its header's (R133). -/
theorem storedChecksum_header (hd : HeaderBytes) (v : List Byte) : storedChecksum (hd.bytes ++ v) = some hd.cs := by
  rw [← be16_split hd.cs]
  exact storedChecksum_split (pre := [hd.s0, hd.s1, hd.s2, hd.ty] ++ bytes16 hd.ps) rfl ..

/-- The header of the frame ENCODE builds: packetSize of the whole frame, and the fold of the frame (R210). -/
def encodedHeader (ty : Byte) (v : List Byte) (t : Octets) : HeaderBytes :=
  headerOf ty (BitVec.ofNat 16 (hdrLen + v.length)) (fold (frameOf ty v t)) t

/-- The frame's checksum is the fold of the frame that holds it: the field may be zero while it is computed (R210). -/
theorem frameOf_eq (ty : Byte) (v : List Byte) (t : Octets) :
    frameOf ty v t = (encodedHeader ty v t).bytes ++ v := by
  have hzero : fold (frameOf ty v t) = fold ((headerOf ty (BitVec.ofNat 16 (hdrLen + v.length)) 0 t).bytes ++ v) :=
    fold_headerOf_congr ..
  rw [encodedHeader, hzero]
  rfl

/-- The stored checksum of an encoded frame is its own fold (R212). -/
theorem storedChecksum_frameOf (ty : Byte) (v : List Byte) (t : Octets) :
    storedChecksum (frameOf ty v t) = some (fold (frameOf ty v t)) := by
  have hstored := storedChecksum_header (encodedHeader ty v t) v
  rwa [← frameOf_eq] at hstored

theorem frameOf_length (ty : Byte) (v : List Byte) (t : Octets) : (frameOf ty v t).length = 16 + v.length := by
  rw [frameOf_eq, List.length_append, headerBytes_bytes_length]

/-- ENCODE returns a frame exactly for a known type, a payload that fits and an instant the encoder gives a field, and the
frame is that of these operands (R210, R235). -/
theorem exec_encode_frame_iff {ty : Byte} {v : List Byte} {I : Instant} {s : State} {ps : U16} {f : List Byte} :
    exec (.encode ty v I) s = .next { s with response := some ⟨.ok, .frame ps f⟩ } ↔
      known ty = true ∧ v.length ≤ 65519 ∧ ∃ t, encodeInstant s.cfg.tsFormat I = .field t ∧
        BitVec.ofNat 16 (hdrLen + v.length) = ps ∧ frameOf ty v t = f := by
  have hfits : v.length ≤ 65519 ↔ ¬v.length > maxPayload := Nat.not_lt.symm
  rw [hfits, exec, execEncode]
  cases encodeInstant s.cfg.tsFormat I with
  | otherFormat => simp
  | outOfRange => split_ifs <;> simp [raise_eq]
  | field t =>
    cases known ty with
    | false => simp [raise_eq]
    | true =>
      by_cases hlen : v.length > maxPayload
      · simp [raise_eq, hlen]
      · simp [ok_eq, hlen]

/-- The encoder gives a field to every instant of the instance's format within the seconds of a u32 (R112, R113). -/
theorem exists_encodeInstant_field {fmt : TsFormat} {I : Instant} (hI : I.format = fmt)
    (hsec : ∀ sec frac, I = .ntp sec frac → -2208988800 ≤ sec.toInt ∧ sec.toInt ≤ 2085978495) :
    ∃ t, encodeInstant fmt I = .field t := by
  subst hI
  cases I with
  | ntp sec frac =>
    obtain ⟨hmin, hmax⟩ := hsec sec frac rfl
    obtain ⟨t, ht, -⟩ := encodeNtp_of_inside hmin hmax frac
    exact ⟨t, ht⟩
  | f64 d => exact ⟨Octets.ofU64 d, rfl⟩

/-- Settles O45: the frame's header stores the frame's fold, so either mode emits its packet, and the flags are those of a
verified frame of a known type. -/
theorem encodedFramesAreReceived : Obligations.EncodedFramesAreReceived := by
  intro ty v I s ps f htag hbuf h
  obtain ⟨hty, hlen, t, ht, rfl, rfl⟩ := exec_encode_frame_iff.1 h
  have hps := packetSize_toNat_of_fits hlen
  have hstored : (encodedHeader ty v t).cs = fold ((encodedHeader ty v t).bytes ++ v) := by
    rw [← frameOf_eq]
    rfl
  have hflags : flagsByte (decide ((encodedHeader ty v t).cs = fold ((encodedHeader ty v t).bytes ++ v))) (known ty) =
      0x03 := by
    rw [decide_eq_true hstored, hty]
    rfl
  have hfeed := feed_frame (hd := encodedHeader ty v t) htag (by simp [hbuf]) rfl hps.symm fun _ => hstored
  rw [← frameOf_eq, withEmptyAssembler htag hbuf] at hfeed
  have htsenc := exec_tsenc_field_iff.2 ht
  exact ⟨_, rfl, hflags, rfl, hps, rfl, hfeed, htsenc, timestampsRoundTrip.2 I t s htsenc⟩

/-- Settles O41: `frameOf`, its headers written out byte by byte. -/
theorem encodeBuildsTheFrame : Obligations.EncodeBuildsTheFrame := by
  intro ty v I s
  refine ⟨rfl, fun hmin hmax hlen hI hsec => ?_⟩
  obtain ⟨t, ht⟩ := exists_encodeInstant_field hI hsec
  exact ⟨t, _, packetSize_toNat_of_fits hlen, exec_tsenc_field_iff.2 ht,
    exec_encode_frame_iff.2 ⟨(known_iff ty).2 ⟨hmin, hmax⟩, hlen, t, ht, rfl, rfl⟩⟩

/-- Settles O43: the header of R210 is the one HPACK makes, first with checksum 0 and then with the CSUM. -/
theorem encodeComposesTheUnits : Obligations.EncodeComposesTheUnits := by
  intro ty v I s ps f h
  obtain ⟨-, hlen, t, ht, -, rfl⟩ := exec_encode_frame_iff.1 h
  have hpl : (BitVec.ofNat 16 v.length).toNat = v.length := by
    rw [BitVec.toNat_ofNat]
    omega
  have hpack (cs : U16) := execHpack_of_fits (hpl.trans_le hlen) ty cs t s
  rw [hpl] at hpack
  exact ⟨t, _, _, _, exec_tsenc_field_iff.2 ht, hpack 0, execCsum_of_frame (by simp) s, hpack _, rfl⟩

/-- Settles O44: an encoded frame stores its own fold. -/
theorem encodedFramesVerify : Obligations.EncodedFramesVerify := by
  intro ty v I s ps f h
  obtain ⟨-, -, t, -, -, rfl⟩ := exec_encode_frame_iff.1 h
  have hlen : 16 ≤ (frameOf ty v t).length := by rw [frameOf_length]; exact Nat.le_add_right ..
  refine ⟨fold (frameOf ty v t), (execCverify_of_stored hlen (storedChecksum_frameOf ty v t) s).trans ?_⟩
  rw [decide_eq_true rfl]

end Sys2Proof.Machine
end

section
/-! PROOFS. A host that keeps its duties is never refused: each of its moves is answered, and the next state's host keeps
them too (spec/60_exceptions.md R233, R240, R244). -/
namespace Sys2Proof.Machine

/-- A machine on which every state of `P` steps to a state of `P` runs any number of steps from it. -/
theorem run_next_of_progress {M : Host.Core} {P : M.State → Prop}
    (hstep : ∀ s, P s → ∃ t, M.step s = .next t ∧ P t) (n : Nat) {s : M.State} (hs : P s) :
    ∃ t, M.run n s = .next t ∧ P t := by
  induction n generalizing s with
  | zero => exact ⟨s, rfl, hs⟩
  | succ n ih =>
    obtain ⟨u, hu, hPu⟩ := hstep s hs
    obtain ⟨t, ht, hPt⟩ := ih hPu
    exact ⟨t, by rw [Host.Core.run, hu]; exact ht, hPt⟩

/-- With no move of the host the step holds the state (R244). -/
theorem step_idle {s : State} (hh : s.host = []) : step s = .next s := by
  simp only [step, answerHost, hh]

/-- The step of a reset move is the reset action on the state past the move (R260). -/
theorem step_reset {s : State} {rest : List HostMove} (hh : s.host = .reset :: rest) :
    step s = .next (assertReset { s with host := rest }) := by
  simp only [step, answerHost, hh]

/-- The step of a take move drops the response on the state past the move (R240). -/
theorem step_take {s : State} {rest : List HostMove} (hh : s.host = .take :: rest) :
    step s = .next (takeResponse { s with host := rest }) := by
  simp only [step, answerHost, hh]

/-- Bytes that are one command decode to a well-formed command alone, or begin with an undefined opcode (R80, R84). -/
theorem oneCommand_cases {fmt : TsFormat} {bytes : List Byte} (h : oneCommand fmt bytes = true) :
    (∃ i, decode fmt bytes = .ok i [] ∧ i.wf fmt = true) ∨ ∃ o rest, decode fmt bytes = .undefinedOpcode o rest := by
  unfold oneCommand at h
  split at h
  · rename_i i hd
    exact .inl ⟨i, hd, (encode_of_decode hd).2⟩
  · cases h
  · rename_i o rest hd
    exact .inr ⟨o, rest, hd⟩
  · cases h

/-- One command, issued as the duties ask on a state of R24, is answered by one response; besides it only the block's
state may change (R15, R84). -/
theorem performCommand_answers {bytes : List Byte} {s : State} (hw : s.wasReset = true) (hr : s.response = none)
    (hf : s.wf = true) (hone : oneCommand s.cfg.tsFormat bytes = true) :
    ∃ b r, performCommand bytes s = .next { s with toBlockState := b, response := some r } := by
  obtain ⟨i, hd, hi⟩ | ⟨o, rest, hd⟩ := oneCommand_cases hone
  · obtain ⟨b, r, -, hanswer⟩ := answersOnce_exec hi hf
    exact ⟨b, r, (performCommand_of_decode hd hw hr hf).trans (hanswer s rfl rfl)⟩
  · exact ⟨s.toBlockState, ⟨.illegalCommand, .none⟩, by rw [performCommand_ready bytes hw hr hf, hd]; rfl⟩

/-- A command move of a dutiful host comes after reset, with no response outstanding, is one command, and leaves a host
that is dutiful with that command's response outstanding (R240). -/
theorem dutiful_command {s : State} {bytes : List Byte} {rest : List HostMove} (hh : s.host = .command bytes :: rest)
    (hd : dutiful s = true) :
    s.wasReset = true ∧ s.response = none ∧ oneCommand s.cfg.tsFormat bytes = true ∧
      keepsDuties s.cfg.tsFormat true true rest = true := by
  simp only [dutiful, hh, keepsDuties, Bool.and_eq_true, Bool.not_eq_true', Option.isSome_eq_false_iff,
    Option.isNone_iff_eq_none] at hd
  obtain ⟨⟨⟨hw, hr⟩, hone⟩, hrest⟩ := hd
  exact ⟨hw, hr, hone, hw ▸ hrest⟩

/-- From a state of the invariant the step answers a dutiful host, and leaves it dutiful (R233, R240). -/
theorem step_answers_dutiful {s : State} (hs : Inv s) (hd : dutiful s = true) :
    ∃ t, step s = .next t ∧ dutiful t = true := by
  match hh : s.host with
  | [] => exact ⟨s, step_idle hh, hd⟩
  | .reset :: rest => exact ⟨_, step_reset hh, by rwa [dutiful, hh] at hd⟩
  | .take :: rest => exact ⟨_, step_take hh, by rwa [dutiful, hh] at hd⟩
  | .command bytes :: rest =>
    obtain ⟨hw, hr, hone, hrest⟩ := dutiful_command hh hd
    obtain ⟨b, r, hanswer⟩ := performCommand_answers (s := { s with host := rest }) hw hr
      ((wf_withHost s rest).trans (hs hw)) hone
    refine ⟨_, (step_command hh).trans hanswer, ?_⟩
    rw [dutiful, hw]
    exact hrest

/-- Settles O54: the invariant and the duties hold together after every step. -/
theorem dutifulHostsAreNeverRefused : Obligations.DutifulHostsAreNeverRefused := by
  intro n s hs hd
  have hprogress (s : State) (h : Inv s ∧ dutiful s = true) : ∃ t, step s = .next t ∧ Inv t ∧ dutiful t = true := by
    obtain ⟨hs, hd⟩ := h
    obtain ⟨t, ht, hdt⟩ := step_answers_dutiful hs hd
    exact ⟨t, ht, step_keeps_inv hs ht, hdt⟩
  obtain ⟨t, ht, -⟩ := run_next_of_progress (M := core) hprogress n ⟨hs, hd⟩
  exact ⟨t, ht⟩

/-- Settles O10: the steps of the two moves that perform no command and no reset. -/
theorem idleAndTakeHoldTheState : Obligations.IdleAndTakeHoldTheState :=
  ⟨fun _ hh => step_idle hh, fun _ _ hh => step_take hh⟩

end Sys2Proof.Machine
end

section
/-! PROOFS. The order of ENCODE's checks (spec/46_encoder.md R210; spec/60_exceptions.md R235). -/
namespace Sys2Proof.Machine

/-- ENCODE's answer for a known type and a payload that fits: what the timestamp encoder made of the instant decides it
(R210). -/
def encodeWithTime (ty : Byte) (v : List Byte) (e : Encoded) (s : State) : Answer :=
  match e with
  | .field t => ok (.frame (BitVec.ofNat 16 (hdrLen + v.length)) (frameOf ty v t)) s
  | .outOfRange => raise .timestampOutOfRange .none s
  | .otherFormat => .refused .instantOfOtherFormat

/-- On an instant of the block's own TS_FORMAT ENCODE checks the type, then the length, then the time (R235). -/
theorem execEncode_eq (ty : Byte) (v : List Byte) {I : Instant} {s : State} (hI : I.format = s.cfg.tsFormat) :
    execEncode ty v I s =
      if known ty = false then raise .unknownMessageType .none s
      else if 65519 < v.length then raise .payloadTooLong .none s
      else encodeWithTime ty v (encodeInstant s.cfg.tsFormat I) s := by
  rw [execEncode]
  cases he : encodeInstant s.cfg.tsFormat I with
  | otherFormat => exact absurd hI (encodeInstant_eq_otherFormat_iff.1 he)
  | outOfRange => cases known ty <;> rfl
  | field t => cases known ty <;> rfl

/-- Settles O42: one check after the other, and the encoder's range for an NTP time. -/
theorem encodeChecksInOrder : Obligations.EncodeChecksInOrder := by
  intro ty v I s hI
  have hknown (hmin : 1 ≤ ty.toNat) (hmax : ty.toNat ≤ 9) : ¬known ty = false := by
    rw [(known_iff ty).2 ⟨hmin, hmax⟩]
    decide
  rw [exec, execEncode_eq ty v hI]
  refine ⟨fun hty => ?_, fun hmin hmax hlen => ?_, ?_⟩
  · rw [if_pos ((known_eq_false_iff ty).2 hty), raise_eq]
  · rw [if_neg (hknown hmin hmax), if_pos hlen, raise_eq]
  · rintro sec frac rfl hmin hmax hlen hsec
    have htime : encodeInstant s.cfg.tsFormat (.ntp sec frac) = .outOfRange := by
      rw [← hI]
      exact encodeNtp_of_outside hsec frac
    rw [if_neg (hknown hmin hmax), if_neg (Nat.not_lt.2 hlen), htime, encodeWithTime, raise_eq]

end Sys2Proof.Machine
end

section
/-! PROOFS. The statuses: their codes, which of them each command answers, and what a command that fails has written
(spec/60_exceptions.md R230, R231, R234). -/
namespace Sys2Proof.Machine

theorem status_code_toNat_le (st : Status) : st.code.toNat ≤ 8 := by
  cases st <;> decide

/-- Settles O4: a response's serialization begins with the code of its status. -/
theorem statusCodesAreThoseOfTheTable : Obligations.StatusCodesAreThoseOfTheTable :=
  ⟨rfl, rfl, rfl, rfl, rfl, rfl, rfl, rfl, rfl, fun r => ⟨_, _, rfl, status_code_toNat_le r.status⟩⟩

/-- Only the NTP encoder finds a time out of range (R112, R113). -/
theorem format_of_outOfRange {fmt : TsFormat} {I : Instant} (h : encodeInstant fmt I = .outOfRange) : fmt = .ntp := by
  cases fmt with
  | ntp => rfl
  | f64 => cases I <;> cases h

/-- A PUSH answers OK, or ChecksumMismatch in strict mode (R171 to R174). -/
theorem exec_push_status (b : Byte) (s : State) :
    RespondsWith (fun r => r.status = .ok ∨ (r.status = .checksumMismatch ∧ s.ctrl.getLsbD 0 = true))
      (exec (.push b) s) := by
  intro t r h hr
  cases pushOutcome_of_exec h with
  | collected | discarded | emitted =>
    injection hr with hr
    exact .inl (hr ▸ rfl)
  | dropped stored computed hstrict =>
    injection hr with hr
    exact .inr ⟨hr ▸ rfl, hstrict⟩

/-- EOS answers OK, or TruncatedFrame outside SEEK (R176). -/
theorem exec_eos_status (s : State) :
    RespondsWith (fun r => r.status = .ok ∨ r.status = .truncatedFrame) (exec .eos s) := by
  rw [exec, execEos]
  cases s.tag with
  | seek => exact respondsWith_respond (.inl rfl) _
  | hdr | pay => exact respondsWith_respond (.inr rfl) _

/-- CVERIFY answers BadLength or a verdict (R132). -/
theorem exec_cverify_status (v : List Byte) (s : State) :
    RespondsWith (fun r => r.status = .ok ∨ r.status = .badLength) (exec (.cverify v) s) := by
  refine respondsWith_ite (respondsWith_respond (.inr rfl) _) ?_
  cases storedChecksum v with
  | none => exact respondsWith_respond (.inr rfl) _
  | some stored => exact respondsWith_respond (.inl rfl) _

/-- TSENC answers a field, or TimestampOutOfRange with NTP (R112, R113). -/
theorem exec_tsenc_status (I : Instant) (s : State) :
    RespondsWith (fun r => r.status = .ok ∨ (r.status = .timestampOutOfRange ∧ s.cfg.tsFormat = .ntp))
      (exec (.tsenc I) s) := by
  rw [exec, execTsenc]
  cases he : encodeInstant s.cfg.tsFormat I with
  | field t => exact respondsWith_respond (.inl rfl) _
  | outOfRange => exact respondsWith_respond (.inr ⟨rfl, format_of_outOfRange he⟩) _
  | otherFormat => exact respondsWith_refused _

/-- ENCODE answers a frame or the status of the first check that fails (R210, R235). -/
theorem exec_encode_status (ty : Byte) (v : List Byte) (I : Instant) (s : State) :
    RespondsWith (fun r => r.status = .ok ∨ r.status = .unknownMessageType ∨ r.status = .payloadTooLong ∨
      (r.status = .timestampOutOfRange ∧ s.cfg.tsFormat = .ntp)) (exec (.encode ty v I) s) := by
  by_cases hI : I.format = s.cfg.tsFormat
  · rw [exec, execEncode_eq ty v hI]
    refine respondsWith_ite (respondsWith_respond (.inr (.inl rfl)) _)
      (respondsWith_ite (respondsWith_respond (.inr (.inr (.inl rfl))) _) ?_)
    cases he : encodeInstant s.cfg.tsFormat I with
    | field t => exact respondsWith_respond (.inl rfl) _
    | outOfRange => exact respondsWith_respond (.inr (.inr (.inr ⟨rfl, format_of_outOfRange he⟩))) _
    | otherFormat => exact respondsWith_refused _
  · rw [exec, execEncode, encodeInstant_eq_otherFormat_iff.2 hI]
    exact respondsWith_refused _

/-- Settles O57: command by command, the statuses of the branches of its meaning. -/
theorem statusesOfEachCommand : Obligations.StatusesOfEachCommand := by
  intro i s
  change RespondsWith _ (exec i s)
  cases i with
  | push b => exact exec_push_status b s
  | eos => exact exec_eos_status s
  | cverify v => exact exec_cverify_status v s
  | tsenc I => exact exec_tsenc_status I s
  | encode ty v I => exact exec_encode_status ty v I s
  | flush | query | tsdec => exact respondsWith_respond (.inl rfl) _
  | setmode | hunpack => exact respondsWith_ite (respondsWith_respond (.inl rfl) _) (respondsWith_respond (.inr rfl) _)
  | hpack | csum => exact respondsWith_ite (respondsWith_respond (.inr rfl) _) (respondsWith_respond (.inl rfl) _)
  | typename => exact respondsWith_ite (respondsWith_respond (.inl rfl) _) (respondsWith_respond (.inl rfl) _)

/-- Settles O56: a PUSH fails only where COMPLETE drops the frame, and EOS only outside SEEK; both have emptied the
assembler. What else can fail has written the response only. -/
theorem failuresWriteNothing : Obligations.FailuresWriteNothing := by
  intro i s t r h hr hfail
  cases i with
  | push b =>
    cases pushOutcome_of_exec h with
    | collected | discarded | emitted =>
      injection hr with hr
      exact absurd (hr ▸ rfl) hfail
    | dropped =>
      injection hr with hr
      subst hr
      exact .inr ⟨.inl rfl, rfl⟩
  | eos =>
    obtain ⟨htag, hbuf⟩ := exec_eos_empties h
    obtain ⟨tag, buf, r', rfl⟩ := writesAssemblerOnly_execEos t h
    injection hr with hr
    subst hr
    subst htag hbuf
    exact .inr ⟨.inr ((exec_eos_status s _ _ h rfl).resolve_left hfail), rfl⟩
  | setmode m =>
    obtain ⟨-, hok, hrefused⟩ := setmodeWritesStrict s m
    by_cases hm : m.toNat ≤ 1
    · rw [hok hm] at h
      injection h with h
      subst h
      injection hr with hr
      exact absurd (hr ▸ rfl) hfail
    · rw [hrefused (Nat.not_le.1 hm)] at h
      injection h with h
      subst h
      injection hr with hr
      exact .inl (hr ▸ rfl)
  | flush | query => exact absurd ((statusesOfEachCommand _ s t r h hr).resolve_right id) hfail
  | hpack | hunpack | csum | cverify | tsenc | tsdec | typename | encode =>
    obtain ⟨r', rfl⟩ := exec_pure_next rfl h
    injection hr with hr
    exact .inl (hr ▸ rfl)

end Sys2Proof.Machine
end

section
/-! PROOFS. Reset, the commands outside the duties, and a mode change inside a frame (spec/70_reset_and_hazards.md R260
to R267). -/
namespace Sys2Proof.Machine

/-- Bit 0 of a packet's flags is 0 when the checksum test fails, whatever the type (R87). -/
theorem csumOk_flag_of_mismatch {good typeKnown : Prop} [Decidable good] [Decidable typeKnown] (hbad : ¬good) :
    ((if good then (0x01 : Byte) else 0x00) ||| if typeKnown then 0x02 else 0x00).getLsbD 0 = false := by
  rw [if_neg hbad]
  split
  · decide
  · decide

/-- Settles O21: SETMODE writes CTRL and the response only, so COMPLETE runs on the same frame and reads the mode just
written. -/
theorem modeChangeReachesTheFrameInProgress : Obligations.ModeChangeReachesTheFrameInProgress := by
  intro s m b ty p1 p0 c1 c0 t payload hm ht hf hlen hne
  obtain ⟨-, hset, -⟩ := setmodeWritesStrict s m
  obtain ⟨hreject, hemit⟩ := pushCompletesTheFrame { s with ctrl := m, response := some ⟨.ok, .none⟩ }
    b ty p1 p0 c1 c0 t payload ht hf hlen
  obtain rfl | rfl := reservedBits_eq_zero_iff.1 (reservedBits_eq_zero_iff_toNat_le.2 hm)
  · have hlenient : (0x00 : Byte).getLsbD 0 = false := by decide
    exact ⟨_, _, hset hm, rfl, rfl, hemit (.inl hlenient), fun h => absurd h (by decide), fun _ =>
      ⟨_, rfl, csumOk_flag_of_mismatch hne⟩⟩
  · have hstrict : (0x01 : Byte).getLsbD 0 = true := by decide
    exact ⟨_, _, hset hm, rfl, rfl, hreject hstrict hne, fun _ => rfl, fun h => absurd h (by decide)⟩

/-- A well-formed command issued after reset, on a state of R24 with the response taken, is performed (R15). -/
theorem step_answers_encoded {s : State} {rest : List HostMove} {i : Instr} (hh : s.host = .command (encode i) :: rest)
    (hi : i.wf s.cfg.tsFormat = true) (hw : s.wasReset = true) (hr : s.response = none) (hf : s.wf = true) :
    ∃ t, step s = .next t := by
  obtain ⟨b, r, -, hanswer⟩ := answersOnce_exec (s := { s with host := rest }) hi ((wf_withHost s rest).trans hf)
  exact ⟨_, (stepRunsTheEncodedCommand s rest i hh hi hw hr hf).trans (hanswer _ rfl rfl)⟩

/-- Settles O8: the reset action gives a state of R24, on which every command is answered. -/
theorem resetWritesTheResetValues : Obligations.ResetWritesTheResetValues := by
  intro s rest hh
  have hwf : (assertReset { s with host := rest }).wf = true := wf_assertReset _
  refine ⟨_, step_reset hh, rfl, rfl, rfl, rfl, rfl, rfl, rfl, hwf, fun i hi => ?_⟩
  exact step_answers_encoded rfl hi rfl rfl ((wf_congr rfl rfl rfl).trans hwf)

section
variable {s : State}

theorem performCommand_beforeFirstReset (bytes : List Byte) (hw : s.wasReset = false) :
    performCommand bytes s = .refused .beforeFirstReset := by
  rw [performCommand, hw]
  rfl

theorem performCommand_responseNotTaken (bytes : List Byte) (hw : s.wasReset = true) (hr : s.response ≠ none) :
    performCommand bytes s = .refused .responseNotTaken := by
  rw [performCommand, hw, Option.isSome_iff_ne_none.2 hr]
  rfl

theorem performCommand_illFormedState (bytes : List Byte) (hw : s.wasReset = true) (hr : s.response = none)
    (hf : s.wf = false) : performCommand bytes s = .refused .illFormedState := by
  rw [performCommand, hw, hr, hf]
  rfl

end

/-- Settles O11: the checks before the decoder, in their order. -/
theorem commandsOutsideTheDutiesAreRefused : Obligations.CommandsOutsideTheDutiesAreRefused := by
  intro s bytes rest hh
  rw [step_command hh]
  exact ⟨fun hw => performCommand_beforeFirstReset bytes hw,
    fun hw hr => performCommand_responseNotTaken bytes hw hr,
    fun hw hr hf => performCommand_illFormedState bytes hw hr ((wf_withHost s rest).trans hf)⟩

/-- Settles O22: the one answer of each, EOS's by the tag before it. -/
theorem threeWaysOfEmptyingTheAssembler : Obligations.ThreeWaysOfEmptyingTheAssembler := by
  intro s rest
  obtain ⟨-, heos⟩ := eosReportsATruncatedFrame
  obtain ⟨hseek, hframe⟩ := heos s
  obtain ⟨-, hflush⟩ := flushEmptiesTheAssembler
  refine ⟨?_, ⟨_, hflush s, rfl, rfl, rfl, rfl, rfl⟩, ⟨_, step_reset rfl, rfl, rfl, rfl, rfl, rfl⟩⟩
  by_cases ht : s.tag = .seek
  · exact ⟨_, hseek ht, rfl, rfl, rfl, rfl, fun _ => rfl, fun hne => absurd ht hne⟩
  · exact ⟨_, hframe ht, rfl, rfl, rfl, rfl, fun hs => absurd hs ht, fun _ => rfl⟩

end Sys2Proof.Machine
end
